-- ==== Sys2Proof/Word.lean ====
section
/-! DEFINITION. The words of the packet-header parser: every value is an unsigned bit vector of the
width the spec gives it (`00_scope.md` rules R7 and R9: no signed quantity anywhere). -/

namespace Sys2Proof

/-- A byte of the input buffer, 8 bits (`20_memory.md` rule R30). -/
abbrev Byte := BitVec 8

/-- A 16-bit field, code or checksum word (`u16` of rule R7). -/
abbrev U16 := BitVec 16

/-- A 32-bit sum (`u32` of rule R7; `SUM_BITS` of rule R6). -/
abbrev U32 := BitVec 32

end Sys2Proof
end

