-- ==== Sys2Proof/Config.lean ====
section
/-! DEFINITION. What one implementation fixes: the keys of the two constant lookup tables and the
other parameters of `00_scope.md` rule R6. The tables' CONTENTS stand in the machine's state as the two
ROMs of rule R10 (so a claim holds whatever the codes are); the values here are the ones State.reset
takes. The codes marked PRESUMED are the spec's own defaults "from general knowledge, not in source"
(`92_eei_decisions.md` D8), see notes/assumptions/1.md. -/

namespace Sys2Proof

/-- `ETYPE_ROM`: the two keys of the ethertype table, each under the kind it resolves to
(`20_memory.md` rule R31, `30_encoding.md` rule R58). -/
structure EtypeRom where
  ipv4 : U16
  ipv6 : U16
  deriving DecidableEq, Repr

/-- `PROTO_ROM`: the three keys of the protocol table, each under the kind it resolves to
(`20_memory.md` rule R32, `30_encoding.md` rule R59). -/
structure ProtoRom where
  icmp : Byte
  tcp  : Byte
  udp  : Byte
  deriving DecidableEq, Repr

/-- The two read-only tables together. -/
structure Roms where
  etype : EtypeRom
  proto : ProtoRom
  deriving DecidableEq, Repr

/-- What the source fixes of the tables whatever the open codes are (`00_scope.md` rule R6): the keys of
one table are distinct, TCP is 6, 0x1234 is no ethertype key and 0x99 is no protocol key. -/
def Roms.wf (r : Roms) : Bool :=
  decide (r.etype.ipv4 ≠ r.etype.ipv6) && decide (r.proto.icmp ≠ r.proto.tcp)
    && decide (r.proto.icmp ≠ r.proto.udp) && decide (r.proto.tcp ≠ r.proto.udp)
    && decide (r.proto.tcp = 6) && decide (r.etype.ipv4 ≠ 0x1234) && decide (r.etype.ipv6 ≠ 0x1234)
    && decide (r.proto.icmp ≠ 0x99) && decide (r.proto.udp ≠ 0x99)

namespace Config

/-- `WIDTH_MIN` of rule R6. -/
abbrev widthMin : Nat := 1
/-- `WIDTH_MAX` of rule R6. -/
abbrev widthMax : Nat := 16
/-- `ETH_HDR_BYTES` of rule R6. -/
abbrev ethHdrBytes : Nat := 14
/-- `IP4_HDR_BYTES` of rule R6. -/
abbrev ip4HdrBytes : Nat := 20
/-- `MAC_BYTES` of rule R6. -/
abbrev macBytes : Nat := 6
/-- `IP4_ADDR_BYTES` of rule R6. -/
abbrev ip4AddrBytes : Nat := 4

/-- `ETYPE_IPV4`. PRESUMED, the spec's default (log entry 1). -/
def etypeIpv4 : U16 := 0x0800
/-- `ETYPE_IPV6`. PRESUMED, the spec's default (log entry 1). -/
def etypeIpv6 : U16 := 0x86DD
/-- `PROTO_ICMP`. PRESUMED, the spec's default (log entry 1). -/
def protoIcmp : Byte := 0x01
/-- `PROTO_TCP`, fixed by the source's §8 example. -/
def protoTcp : Byte := 0x06
/-- `PROTO_UDP`. PRESUMED, the spec's default (log entry 1). -/
def protoUdp : Byte := 0x11

/-- The ROMs with the spec's default parameters. -/
def roms : Roms := ⟨⟨etypeIpv4, etypeIpv6⟩, ⟨protoIcmp, protoTcp, protoUdp⟩⟩

/-- `MAX_LEN` as State.reset takes it: no bound. DESIGN CHOICE (log entry 2). -/
def maxLen : Option Nat := none

end Config

end Sys2Proof
end

