-- ==== Sys2Proof/Syntax.lean ====
section
/-! DEFINITION. The decoded records (`10_state.md` section 3) and the instructions: one constructor for
every row of spec/opcode_table.json. The block has no instruction word (`30_encoding.md` rule R56(e)):
a constructor's arguments are the call's arguments, or the fields of a wire form. -/

namespace Sys2Proof

/-- A 6-byte Ethernet address, bytes in wire order, `b0` first on the wire (rule R15). -/
structure MacAddr where
  b0 : Byte
  b1 : Byte
  b2 : Byte
  b3 : Byte
  b4 : Byte
  b5 : Byte
  deriving DecidableEq, Repr

/-- A 4-byte IPv4 address, bytes in wire order (rule R16). -/
structure Ip4Addr where
  b0 : Byte
  b1 : Byte
  b2 : Byte
  b3 : Byte
  deriving DecidableEq, Repr

/-- `PayloadKind` (rule R18). -/
inductive PayloadKind where
  | ipv4
  | ipv6
  | unknown (code : U16)
  deriving DecidableEq, Repr

/-- `ProtocolKind` (rule R19). -/
inductive ProtocolKind where
  | icmp
  | tcp
  | udp
  | unknown (code : Byte)
  deriving DecidableEq, Repr

/-- `Fragmentation` (rule R20); `offset` is in units of 8 bytes. -/
inductive Fragmentation where
  | noFragmentation
  | fragmented (moreFragments : Bool) (offset : BitVec 13)
  deriving DecidableEq, Repr

/-- The Ethernet result record `EthernetHeader` (rule R15). -/
structure EthernetHeader where
  destination : MacAddr
  source      : MacAddr
  payloadKind : PayloadKind
  deriving DecidableEq, Repr

/-- The IPv4 result record `IPV4Header`, twelve fields in wire order, each at its declared width
(rules R16 and R17). -/
structure IPV4Header where
  version                        : BitVec 4
  headerLength                   : BitVec 4
  differentiatedServicesCodepoint : BitVec 6
  explicitCongestionNotification : BitVec 2
  totalLength                    : U16
  identification                 : U16
  fragmentation                  : Fragmentation
  timeToLive                     : Byte
  protocol                       : ProtocolKind
  headerChecksum                 : U16
  source                         : Ip4Addr
  destination                    : Ip4Addr
  deriving DecidableEq, Repr

/-- The fields of the IPv4 base header AS ON THE WIRE (`30_encoding.md` rule R52), before the
fragmentation word and the protocol code are resolved. -/
structure Ipv4Wire where
  version        : BitVec 4
  headerLength   : BitVec 4
  dscp           : BitVec 6
  ecn            : BitVec 2
  totalLength    : U16
  identification : U16
  reserved       : Bool
  dontFragment   : Bool
  moreFragments  : Bool
  offset         : BitVec 13
  timeToLive     : Byte
  protocolCode   : Byte
  headerChecksum : U16
  source         : Ip4Addr
  destination    : Ip4Addr
  deriving DecidableEq, Repr

/-- The buffer of a cursor operand (`c = (BUF, POS)`, rule R11): the input buffer the block holds, or a
fresh byte sequence the host gives with the call (`40_bitcursor.md` rule R74). Log entry 5. -/
inductive BufArg where
  | held
  | given (bytes : List Byte)
  deriving DecidableEq, Repr

/-- A cursor operand: a buffer and a bit offset into it (rule R11). -/
structure CursorArg where
  buf : BufArg
  pos : Nat
  deriving DecidableEq, Repr

/-- What a byte string handed to the decoder is read as. `op` is a call of one of the sixteen operation
indices (`30_encoding.md` rule R57); the others are the wire and word formats of rules R51 to R55 and
the code columns of the two tables (rules R58, R59). The table's format `WORD16` covers five word forms
whose bit patterns overlap, so each of them is a form of its own here. -/
inductive Form where
  | op
  | ethHdr
  | ipv4Hdr
  | word0
  | fragWord
  | fragEncWord
  | csumW4
  | csumHalf
  | etypeCode
  | protoCode
  deriving DecidableEq, Repr

/-- The instructions: the thirteen operations and three refused indices of rule R57, the wire formats
of rules R51 to R55, and the rows of the two code tables (rules R58, R59). -/
inductive Instr where
  /-- TAKE_BITS(c, width), rule R70. -/
  | takeBits (c : CursorArg) (width : Nat)
  /-- TAKE_BYTES(c, n), rule R72. -/
  | takeBytes (c : CursorArg) (n : Nat)
  /-- ETYPE_LOOKUP(code), rule R80. -/
  | etypeLookup (code : U16)
  /-- PROTO_LOOKUP(code), rule R82. -/
  | protoLookup (code : Byte)
  /-- PROTO_CODE(kind), rule R84. -/
  | protoCode (kind : ProtocolKind)
  /-- FRAG_DECODE(w), rule R90. -/
  | fragDecode (word : U16)
  /-- FRAG_ENCODE(f), rule R92. -/
  | fragEncode (value : Fragmentation)
  /-- ETH_DECODE(c), rule R100. -/
  | ethDecode (c : CursorArg)
  /-- IPV4_DECODE(c), rule R110. -/
  | ipv4Decode (c : CursorArg)
  /-- CSUM_WORDS(h), rule R120. -/
  | csumWords (h : IPV4Header)
  /-- CSUM_FOLD(s), rule R122. -/
  | csumFold (sum : U32)
  /-- CSUM_VALIDATE(h), rule R124. -/
  | csumValidate (h : IPV4Header)
  /-- PARSE(bytes), rule R130. -/
  | parse (bytes : List Byte)
  /-- Operation index 13, refused (rule R57). -/
  | opReserved13
  /-- Operation index 14, refused (rule R57). -/
  | opReserved14
  /-- Operation index 15, refused (rule R57). -/
  | opReserved15
  /-- ETH_HDR: a 14-byte Ethernet header as on the wire (rule R51). -/
  | ethHdr (destination source : MacAddr) (code : U16)
  /-- IPV4_HDR: a 20-byte IPv4 base header as on the wire (rule R52). -/
  | ipv4Hdr (w : Ipv4Wire)
  /-- IPV4_W0: word 0 of the IPv4 header (rule R53). -/
  | ipv4W0 (version headerLength : BitVec 4) (dscp : BitVec 6) (ecn : BitVec 2)
  /-- FRAG.NOFRAG: a fragmentation word with don't-fragment set (rules R54, R90). -/
  | fragNofrag (reserved moreFragments : Bool) (offset : BitVec 13)
  /-- FRAG.FRAGMENTED: a fragmentation word with don't-fragment clear (rules R54, R90). -/
  | fragFragmented (reserved moreFragments : Bool) (offset : BitVec 13)
  /-- FRAG_ENC.NOFRAG: the output word for `NoFragmentation` (rule R92). -/
  | fragEncNofrag
  /-- FRAG_ENC.FRAGMENTED: the output word for `Fragmented` (rule R92). -/
  | fragEncFragmented (moreFragments : Bool) (offset : BitVec 13)
  /-- CSUM_W4: checksum word 4, time-to-live and protocol code (rules R55, R120). -/
  | csumW4 (timeToLive code : Byte)
  /-- CSUM_W5_TO_W8: one half of an address as a checksum word (rules R55, R120). -/
  | csumW5ToW8 (a b : Byte)
  /-- ETYPE.IPV4: the key row of IPV4 (rule R58). -/
  | etypeIpv4
  /-- ETYPE.IPV6: the key row of IPV6 (rule R58). -/
  | etypeIpv6
  /-- ETYPE.UNKNOWN: the default row, for a code that is no key (rule R58). -/
  | etypeUnknown (code : U16)
  /-- PROTO.ICMP: the key row of ICMP (rule R59). -/
  | protoIcmp
  /-- PROTO.TCP: the key row of TCP (rule R59). -/
  | protoTcp
  /-- PROTO.UDP: the key row of UDP (rule R59). -/
  | protoUdp
  /-- PROTO.UNKNOWN: the default row, for a code that is no key (rule R59). -/
  | protoUnknown (code : Byte)
  deriving DecidableEq, Repr

end Sys2Proof
end

