-- ==== Sys2Proof/WellFormed.lean ====
section
/-! DEFINITION. Which instructions are terms the call encoding can carry and whose operands are of the
type the spec gives them. A width outside 1 to 16 and an unaligned cursor are NOT ruled out here: the
spec names what such a call does (`60_exceptions.md` rule R143), so they are calls. -/

namespace Sys2Proof

/-- A cursor operand is one: `0 ≤ POS ≤ 8·LEN` for a buffer given with the call (rule R11), and the
offset fits the call encoding's 64 bits (log entry 4). For the buffer the block holds, the length is
the state's and not the term's. -/
def CursorArg.wellFormed (c : CursorArg) : Bool :=
  decide (c.pos < 2 ^ 64) &&
    match c.buf with
    | .held => true
    | .given bytes => decide (c.pos ≤ 8 * bytes.length)

/-- The well-formedness check. A default row of a table stands only for a code that is no key of it
(rules R58, R59: "the key rows are tried first"). -/
def Instr.wellFormed (roms : Roms) : Instr → Bool
  | .takeBits c width => c.wellFormed && decide (width < 256)
  | .takeBytes c n => c.wellFormed && decide (n < 2 ^ 64)
  | .ethDecode c => c.wellFormed
  | .ipv4Decode c => c.wellFormed
  | .etypeUnknown code => decide (code ≠ roms.etype.ipv4) && decide (code ≠ roms.etype.ipv6)
  | .protoUnknown code =>
      decide (code ≠ roms.proto.icmp) && decide (code ≠ roms.proto.tcp) && decide (code ≠ roms.proto.udp)
  | .etypeLookup _ => true
  | .protoLookup _ => true
  | .protoCode _ => true
  | .fragDecode _ => true
  | .fragEncode _ => true
  | .csumWords _ => true
  | .csumFold _ => true
  | .csumValidate _ => true
  | .parse _ => true
  | .opReserved13 => true
  | .opReserved14 => true
  | .opReserved15 => true
  | .ethHdr _ _ _ => true
  | .ipv4Hdr _ => true
  | .ipv4W0 _ _ _ _ => true
  | .fragNofrag _ _ _ => true
  | .fragFragmented _ _ _ => true
  | .fragEncNofrag => true
  | .fragEncFragmented _ _ => true
  | .csumW4 _ _ => true
  | .csumW5ToW8 _ _ => true
  | .etypeIpv4 => true
  | .etypeIpv6 => true
  | .protoIcmp => true
  | .protoTcp => true
  | .protoUdp => true

end Sys2Proof
end

