-- ==== Sys2Proof/Decode.lean ====
section
/-! DEFINITION. The byte orders and bit slices of the wire formats (`30_encoding.md` rules R50 to R56),
the decoder, total on any bytes and rejecting by name, and after it the encoder.

The spec gives an operation a 4-bit index and no encoding of its operands ("operands are call arguments,
not instruction bits"). The serialisation of a call as a byte string, index byte first and then the
operands, is the model's own. DESIGN CHOICE (log entry 4). Every multi-byte number is big-endian, as
everywhere in this block (`20_memory.md` rule R35). -/

namespace Sys2Proof

/-! ### Byte order and slices -/

/-- Two bytes as a big-endian 16-bit value: the first is the more significant (rule R35). -/
def be16 (hi lo : Byte) : U16 := hi ++ lo

/-- The first byte on the wire of a 16-bit value. -/
def hi8 (w : U16) : Byte := w.extractLsb' 8 8

/-- The second byte on the wire of a 16-bit value. -/
def lo8 (w : U16) : Byte := w.extractLsb' 0 8

/-- Four bytes as a big-endian 32-bit value. -/
def be32 (b3 b2 b1 b0 : Byte) : U32 := b3 ++ b2 ++ b1 ++ b0

/-- Byte `k` of a 32-bit value, byte 0 the least significant. -/
def byte32 (w : U32) (k : Nat) : Byte := w.extractLsb' (8 * k) 8

/-- Byte `k` of a natural number, byte 0 the least significant. -/
def byteOfNat (n k : Nat) : Byte := BitVec.ofNat 8 (n / 256 ^ k)

/-- Eight bytes as a big-endian number. -/
def nat64 (b7 b6 b5 b4 b3 b2 b1 b0 : Byte) : Nat :=
  ((((((b7.toNat * 256 + b6.toNat) * 256 + b5.toNat) * 256 + b4.toNat) * 256 + b3.toNat) * 256
    + b2.toNat) * 256 + b1.toNat) * 256 + b0.toNat

/-- `version = w[15:12]` (rule R53). -/
def word0Version (w : U16) : BitVec 4 := w.extractLsb' 12 4
/-- `header_length = w[11:8]` (rule R53). -/
def word0HeaderLength (w : U16) : BitVec 4 := w.extractLsb' 8 4
/-- `differentiated_services_codepoint = w[7:2]` (rule R53). -/
def word0Dscp (w : U16) : BitVec 6 := w.extractLsb' 2 6
/-- `explicit_congestion_notification = w[1:0]` (rule R53). -/
def word0Ecn (w : U16) : BitVec 2 := w.extractLsb' 0 2

/-- The pattern `vvvvhhhhddddddee` of rule R53. -/
def word0Wire (version headerLength : BitVec 4) (dscp : BitVec 6) (ecn : BitVec 2) : U16 :=
  version ++ headerLength ++ dscp ++ ecn

/-- `reserved = w[15]` (rule R54). -/
def fragReserved (w : U16) : Bool := w.getLsbD 15
/-- `dont_fragment = w[14]` (rule R54). -/
def fragDont (w : U16) : Bool := w.getLsbD 14
/-- `more_fragments = w[13]` (rule R54). -/
def fragMore (w : U16) : Bool := w.getLsbD 13
/-- `offset = w[12:0]` (rule R54). -/
def fragOffset (w : U16) : BitVec 13 := w.extractLsb' 0 13

/-- The pattern `rfmooooooooooooo` of rule R54. -/
def fragWire (reserved dontFragment moreFragments : Bool) (offset : BitVec 13) : U16 :=
  BitVec.ofBool reserved ++ BitVec.ofBool dontFragment ++ BitVec.ofBool moreFragments ++ offset

/-! ### The decoder -/

/-- Why a byte string is no instruction. Every one is met by a refusal of the step (safe). -/
inductive DecodeError where
  /-- The call holds no index byte. -/
  | emptyCall
  /-- The index byte's upper four bits are not zero: the operation index has 4 bits (rule R57). -/
  | badOpByte (b : Byte)
  /-- Fewer bytes than the form's operands or fields take. -/
  | truncated (form : Form)
  /-- A selector or variant tag that names no alternative (log entry 4). -/
  | badTag (b : Byte)
  /-- A word that FRAG_ENCODE never gives, read as an encoder output word (rule R92). -/
  | notFragEncWord (w : U16)
  deriving DecidableEq, Repr

/-- The cursor operand of a call: selector 0 takes the rest of the call as a fresh buffer, selector 1
the buffer the block holds. -/
def cursorArg (sel : Byte) (pos : Nat) (rest : List Byte) : Except DecodeError CursorArg :=
  if sel = 0 then .ok ⟨.given rest, pos⟩
  else if sel = 1 then .ok ⟨.held, pos⟩
  else .error (.badTag sel)

/-- The width field of a TAKE_BITS call holds width - 1 (mod 256). -/
def widthOfByte (b : Byte) : Nat := (b.toNat + 1) % 256

/-- Operands of TAKE_BITS: selector, offset, width, then the buffer. -/
def decodeTakeBits : List Byte → Except DecodeError Instr
  | sel :: p7 :: p6 :: p5 :: p4 :: p3 :: p2 :: p1 :: p0 :: w :: rest =>
    (cursorArg sel (nat64 p7 p6 p5 p4 p3 p2 p1 p0) rest).map (Instr.takeBits · (widthOfByte w))
  | _ => .error (.truncated .op)

/-- Operands of TAKE_BYTES: selector, offset, count, then the buffer. -/
def decodeTakeBytes : List Byte → Except DecodeError Instr
  | sel :: p7 :: p6 :: p5 :: p4 :: p3 :: p2 :: p1 :: p0
      :: n7 :: n6 :: n5 :: n4 :: n3 :: n2 :: n1 :: n0 :: rest =>
    (cursorArg sel (nat64 p7 p6 p5 p4 p3 p2 p1 p0) rest).map
      (Instr.takeBytes · (nat64 n7 n6 n5 n4 n3 n2 n1 n0))
  | _ => .error (.truncated .op)

/-- Operand of ETH_DECODE and IPV4_DECODE: selector, offset, then the buffer. -/
def decodeCursor : List Byte → Except DecodeError CursorArg
  | sel :: p7 :: p6 :: p5 :: p4 :: p3 :: p2 :: p1 :: p0 :: rest =>
    cursorArg sel (nat64 p7 p6 p5 p4 p3 p2 p1 p0) rest
  | _ => .error (.truncated .op)

/-- A 16-bit operand. -/
def decodeU16 : List Byte → Except DecodeError U16
  | hi :: lo :: _ => .ok (be16 hi lo)
  | _ => .error (.truncated .op)

/-- An 8-bit operand. -/
def decodeU8 : List Byte → Except DecodeError Byte
  | b :: _ => .ok b
  | _ => .error (.truncated .op)

/-- A 32-bit operand. -/
def decodeU32 : List Byte → Except DecodeError U32
  | b3 :: b2 :: b1 :: b0 :: _ => .ok (be32 b3 b2 b1 b0)
  | _ => .error (.truncated .op)

/-- A `ProtocolKind` by its tag (rule R19): the code is meaningful under tag 3 only. -/
def kindOfTag (tag code : Byte) : Except DecodeError ProtocolKind :=
  if tag = 0 then .ok .icmp
  else if tag = 1 then .ok .tcp
  else if tag = 2 then .ok .udp
  else if tag = 3 then .ok (.unknown code)
  else .error (.badTag tag)

/-- A `Fragmentation` by its tag (rule R20): the flag and the offset, laid out as bits 13 and 12..0 of
a word, are meaningful under tag 1 only. -/
def fragOfTag (tag : Byte) (w : U16) : Except DecodeError Fragmentation :=
  if tag = 0 then .ok .noFragmentation
  else if tag = 1 then .ok (.fragmented (fragMore w) (fragOffset w))
  else .error (.badTag tag)

/-- A `ProtocolKind` operand: tag, code. -/
def decodeKind : List Byte → Except DecodeError ProtocolKind
  | tag :: code :: _ => kindOfTag tag code
  | _ => .error (.truncated .op)

/-- A `Fragmentation` operand: tag, word. -/
def decodeFrag : List Byte → Except DecodeError Fragmentation
  | tag :: hi :: lo :: _ => fragOfTag tag (be16 hi lo)
  | _ => .error (.truncated .op)

/-- An `IPV4Header` operand: its twelve fields in order, the two variants by tag. -/
def decodeHeader : List Byte → Except DecodeError IPV4Header
  | a0 :: a1 :: l1 :: l0 :: i1 :: i0 :: ft :: f1 :: f0 :: ttl :: pt :: pc :: c1 :: c0
      :: s0 :: s1 :: s2 :: s3 :: d0 :: d1 :: d2 :: d3 :: _ =>
    match fragOfTag ft (be16 f1 f0), kindOfTag pt pc with
    | .ok f, .ok k =>
      .ok ⟨word0Version (be16 a0 a1), word0HeaderLength (be16 a0 a1), word0Dscp (be16 a0 a1),
        word0Ecn (be16 a0 a1), be16 l1 l0, be16 i1 i0, f, ttl, k, be16 c1 c0,
        ⟨s0, s1, s2, s3⟩, ⟨d0, d1, d2, d3⟩⟩
    | .error e, _ => .error e
    | _, .error e => .error e
  | _ => .error (.truncated .op)

/-- The operands of the call whose index is `op` (`30_encoding.md` rule R57). Bytes beyond a
fixed-length operand are not read. -/
def decodeCall (op : Byte) (args : List Byte) : Except DecodeError Instr :=
  match op.toNat with
  | 0 => decodeTakeBits args
  | 1 => decodeTakeBytes args
  | 2 => (decodeU16 args).map .etypeLookup
  | 3 => (decodeU8 args).map .protoLookup
  | 4 => (decodeKind args).map .protoCode
  | 5 => (decodeU16 args).map .fragDecode
  | 6 => (decodeFrag args).map .fragEncode
  | 7 => (decodeCursor args).map .ethDecode
  | 8 => (decodeCursor args).map .ipv4Decode
  | 9 => (decodeHeader args).map .csumWords
  | 10 => (decodeU32 args).map .csumFold
  | 11 => (decodeHeader args).map .csumValidate
  | 12 => .ok (.parse args)
  | 13 => .ok .opReserved13
  | 14 => .ok .opReserved14
  | 15 => .ok .opReserved15
  | _ => .error (.badOpByte op)

/-- A call: the index byte and its operands. -/
def decodeOp : List Byte → Except DecodeError Instr
  | [] => .error .emptyCall
  | op :: args => decodeCall op args

/-- An Ethernet header on the wire (rule R51). -/
def decodeEthHdr : List Byte → Except DecodeError Instr
  | d0 :: d1 :: d2 :: d3 :: d4 :: d5 :: s0 :: s1 :: s2 :: s3 :: s4 :: s5 :: t1 :: t0 :: _ =>
    .ok (.ethHdr ⟨d0, d1, d2, d3, d4, d5⟩ ⟨s0, s1, s2, s3, s4, s5⟩ (be16 t1 t0))
  | _ => .error (.truncated .ethHdr)

/-- An IPv4 base header on the wire (rule R52). -/
def decodeIpv4Hdr : List Byte → Except DecodeError Instr
  | a0 :: a1 :: l1 :: l0 :: i1 :: i0 :: f1 :: f0 :: ttl :: pc :: c1 :: c0
      :: s0 :: s1 :: s2 :: s3 :: d0 :: d1 :: d2 :: d3 :: _ =>
    .ok (.ipv4Hdr ⟨word0Version (be16 a0 a1), word0HeaderLength (be16 a0 a1), word0Dscp (be16 a0 a1),
      word0Ecn (be16 a0 a1), be16 l1 l0, be16 i1 i0,
      fragReserved (be16 f1 f0), fragDont (be16 f1 f0), fragMore (be16 f1 f0), fragOffset (be16 f1 f0),
      ttl, pc, be16 c1 c0, ⟨s0, s1, s2, s3⟩, ⟨d0, d1, d2, d3⟩⟩)
  | _ => .error (.truncated .ipv4Hdr)

/-- IPv4 word 0 (rule R53). -/
def instrOfWord0 (w : U16) : Instr :=
  .ipv4W0 (word0Version w) (word0HeaderLength w) (word0Dscp w) (word0Ecn w)

/-- A fragmentation word: the don't-fragment bit, mask 0x4000, selects the row (rules R54, R90). -/
def instrOfFragWord (w : U16) : Instr :=
  if fragDont w then .fragNofrag (fragReserved w) (fragMore w) (fragOffset w)
  else .fragFragmented (fragReserved w) (fragMore w) (fragOffset w)

/-- An output word of FRAG_ENCODE: exactly 0x4000, or its upper two bits clear (rule R92). -/
def instrOfFragEncWord (w : U16) : Except DecodeError Instr :=
  if w = 0x4000#16 then .ok .fragEncNofrag
  else if w &&& 0xC000#16 = 0#16 then .ok (.fragEncFragmented (fragMore w) (fragOffset w))
  else .error (.notFragEncWord w)

/-- A row of the ethertype table: keys first, then the default row (rule R58). -/
def instrOfEtypeCode (rom : EtypeRom) (code : U16) : Instr :=
  if code = rom.ipv4 then .etypeIpv4
  else if code = rom.ipv6 then .etypeIpv6
  else .etypeUnknown code

/-- A row of the protocol table: keys first, then the default row (rule R59). -/
def instrOfProtoCode (rom : ProtoRom) (code : Byte) : Instr :=
  if code = rom.icmp then .protoIcmp
  else if code = rom.tcp then .protoTcp
  else if code = rom.udp then .protoUdp
  else .protoUnknown code

/-- A word form needs two bytes. -/
def decodeWord (form : Form) (f : U16 → Except DecodeError Instr) : List Byte → Except DecodeError Instr
  | hi :: lo :: _ => f (be16 hi lo)
  | _ => .error (.truncated form)

/-- The decoder. The tables' keys are parameters, so it is given the ROMs. -/
def decode (roms : Roms) (form : Form) (bytes : List Byte) : Except DecodeError Instr :=
  match form with
  | .op => decodeOp bytes
  | .ethHdr => decodeEthHdr bytes
  | .ipv4Hdr => decodeIpv4Hdr bytes
  | .word0 => decodeWord .word0 (fun w => .ok (instrOfWord0 w)) bytes
  | .fragWord => decodeWord .fragWord (fun w => .ok (instrOfFragWord w)) bytes
  | .fragEncWord => decodeWord .fragEncWord instrOfFragEncWord bytes
  | .csumW4 => decodeWord .csumW4 (fun w => .ok (.csumW4 (hi8 w) (lo8 w))) bytes
  | .csumHalf => decodeWord .csumHalf (fun w => .ok (.csumW5ToW8 (hi8 w) (lo8 w))) bytes
  | .etypeCode => decodeWord .etypeCode (fun w => .ok (instrOfEtypeCode roms.etype w)) bytes
  | .protoCode =>
    match bytes with
    | b :: _ => .ok (instrOfProtoCode roms.proto b)
    | [] => .error (.truncated .protoCode)

/-! ### The encoder -/

/-- The form an instruction's byte string is read as. -/
def formOf : Instr → Form
  | .takeBits _ _ => .op
  | .takeBytes _ _ => .op
  | .etypeLookup _ => .op
  | .protoLookup _ => .op
  | .protoCode _ => .op
  | .fragDecode _ => .op
  | .fragEncode _ => .op
  | .ethDecode _ => .op
  | .ipv4Decode _ => .op
  | .csumWords _ => .op
  | .csumFold _ => .op
  | .csumValidate _ => .op
  | .parse _ => .op
  | .opReserved13 => .op
  | .opReserved14 => .op
  | .opReserved15 => .op
  | .ethHdr _ _ _ => .ethHdr
  | .ipv4Hdr _ => .ipv4Hdr
  | .ipv4W0 _ _ _ _ => .word0
  | .fragNofrag _ _ _ => .fragWord
  | .fragFragmented _ _ _ => .fragWord
  | .fragEncNofrag => .fragEncWord
  | .fragEncFragmented _ _ => .fragEncWord
  | .csumW4 _ _ => .csumW4
  | .csumW5ToW8 _ _ => .csumHalf
  | .etypeIpv4 => .etypeCode
  | .etypeIpv6 => .etypeCode
  | .etypeUnknown _ => .etypeCode
  | .protoIcmp => .protoCode
  | .protoTcp => .protoCode
  | .protoUdp => .protoCode
  | .protoUnknown _ => .protoCode

/-- A 16-bit value as its two bytes on the wire. -/
def encodeU16 (w : U16) : List Byte := [hi8 w, lo8 w]

/-- A number of the call encoding, eight bytes. -/
def encodeNat64 (n : Nat) : List Byte :=
  [byteOfNat n 7, byteOfNat n 6, byteOfNat n 5, byteOfNat n 4,
   byteOfNat n 3, byteOfNat n 2, byteOfNat n 1, byteOfNat n 0]

/-- The selector of a buffer operand. -/
def selOf : BufArg → Byte
  | .given _ => 0
  | .held => 1

/-- The bytes a buffer operand brings with it. -/
def bufBytes : BufArg → List Byte
  | .given bytes => bytes
  | .held => []

/-- The width field. -/
def byteOfWidth (width : Nat) : Byte := BitVec.ofNat 8 (width + 255)

/-- Tag and code of a `ProtocolKind` (rule R19). -/
def encodeKind : ProtocolKind → List Byte
  | .icmp => [0, 0]
  | .tcp => [1, 0]
  | .udp => [2, 0]
  | .unknown code => [3, code]

/-- Tag and word of a `Fragmentation` (rule R20). -/
def encodeFrag : Fragmentation → List Byte
  | .noFragmentation => [0, 0, 0]
  | .fragmented m o => 1 :: encodeU16 (fragWire false false m o)

/-- The bytes of a MAC address, in wire order. -/
def MacAddr.bytes (a : MacAddr) : List Byte := [a.b0, a.b1, a.b2, a.b3, a.b4, a.b5]

/-- The bytes of an IPv4 address, in wire order. -/
def Ip4Addr.bytes (a : Ip4Addr) : List Byte := [a.b0, a.b1, a.b2, a.b3]

/-- An `IPV4Header` operand. -/
def encodeHeader (h : IPV4Header) : List Byte :=
  encodeU16 (word0Wire h.version h.headerLength h.differentiatedServicesCodepoint
      h.explicitCongestionNotification)
    ++ encodeU16 h.totalLength ++ encodeU16 h.identification ++ encodeFrag h.fragmentation
    ++ [h.timeToLive] ++ encodeKind h.protocol ++ encodeU16 h.headerChecksum
    ++ h.source.bytes ++ h.destination.bytes

/-- The 20 bytes of a base header on the wire, fields in the order of rule R52. -/
def Ipv4Wire.bytes (w : Ipv4Wire) : List Byte :=
  encodeU16 (word0Wire w.version w.headerLength w.dscp w.ecn)
    ++ encodeU16 w.totalLength ++ encodeU16 w.identification
    ++ encodeU16 (fragWire w.reserved w.dontFragment w.moreFragments w.offset)
    ++ [w.timeToLive, w.protocolCode] ++ encodeU16 w.headerChecksum
    ++ w.source.bytes ++ w.destination.bytes

/-- The 14 bytes of an Ethernet header on the wire (rule R51). -/
def ethWireBytes (destination source : MacAddr) (code : U16) : List Byte :=
  destination.bytes ++ source.bytes ++ encodeU16 code

/-- The encoder: the byte string of an instruction in its form. -/
def encode (roms : Roms) : Instr → List Byte
  | .takeBits c width =>
    0 :: selOf c.buf :: encodeNat64 c.pos ++ byteOfWidth width :: bufBytes c.buf
  | .takeBytes c n => 1 :: selOf c.buf :: encodeNat64 c.pos ++ encodeNat64 n ++ bufBytes c.buf
  | .etypeLookup code => 2 :: encodeU16 code
  | .protoLookup code => [3, code]
  | .protoCode kind => 4 :: encodeKind kind
  | .fragDecode word => 5 :: encodeU16 word
  | .fragEncode value => 6 :: encodeFrag value
  | .ethDecode c => 7 :: selOf c.buf :: encodeNat64 c.pos ++ bufBytes c.buf
  | .ipv4Decode c => 8 :: selOf c.buf :: encodeNat64 c.pos ++ bufBytes c.buf
  | .csumWords h => 9 :: encodeHeader h
  | .csumFold sum => [10, byte32 sum 3, byte32 sum 2, byte32 sum 1, byte32 sum 0]
  | .csumValidate h => 11 :: encodeHeader h
  | .parse bytes => 12 :: bytes
  | .opReserved13 => [13]
  | .opReserved14 => [14]
  | .opReserved15 => [15]
  | .ethHdr d s t => ethWireBytes d s t
  | .ipv4Hdr w => w.bytes
  | .ipv4W0 v h d e => encodeU16 (word0Wire v h d e)
  | .fragNofrag r m o => encodeU16 (fragWire r true m o)
  | .fragFragmented r m o => encodeU16 (fragWire r false m o)
  | .fragEncNofrag => encodeU16 0x4000#16
  | .fragEncFragmented m o => encodeU16 (fragWire false false m o)
  | .csumW4 t p => [t, p]
  | .csumW5ToW8 a b => [a, b]
  | .etypeIpv4 => encodeU16 roms.etype.ipv4
  | .etypeIpv6 => encodeU16 roms.etype.ipv6
  | .etypeUnknown code => encodeU16 code
  | .protoIcmp => [roms.proto.icmp]
  | .protoTcp => [roms.proto.tcp]
  | .protoUdp => [roms.proto.udp]
  | .protoUnknown code => [code]

/-! ### Words numbered as spec/opcode_table.json numbers them -/

/-- The big-endian bytes of the low `8·count` bits of a number. -/
def bigEndianBytes (w : Nat) : Nat → List Byte
  | 0 => []
  | count + 1 => byteOfNat w count :: bigEndianBytes w count

/-- Zero operand bytes after an index byte: as many as the longest fixed-length call takes and a
20-byte header beyond an offset. -/
def callPadding : List Byte := List.replicate 43 0

/-- Which form a table word of `nbits` bits is read as, and its bytes. Rows of different formats share
words (log entry 6): of 8 bits, values below 16 are operation indices and the others protocol codes; of
16 bits, the two ethertype keys are ethertype codes and the others fragmentation words. -/
def tableRequest (nbits w : Nat) : Form × List Byte :=
  if nbits ≤ 8 then
    if w % 256 < 16 then (.op, byteOfNat w 0 :: callPadding) else (.protoCode, bigEndianBytes w 1)
  else if nbits ≤ 16 then
    if w % 65536 = Config.etypeIpv4.toNat ∨ w % 65536 = Config.etypeIpv6.toNat then
      (.etypeCode, bigEndianBytes w 2)
    else (.fragWord, bigEndianBytes w 2)
  else if nbits ≤ 112 then (.ethHdr, bigEndianBytes w 14)
  else (.ipv4Hdr, bigEndianBytes w 20)

/-- The instruction the decoder reads from a table word, with the default keys. -/
def decodeTableWord (nbits w : Nat) : Option Instr :=
  (decode Config.roms (tableRequest nbits w).1 (tableRequest nbits w).2).toOption

end Sys2Proof
end

