-- ==== Sys2Proof/Machine/State.lean ====
section
/-! DEFINITION. The state of one parser instance (`10_state.md` rule R10) and its reset value
(`70_reset_and_hazards.md` rule R170), with the values an operation returns and the outcomes a step may
have. Everything is plain data. -/

namespace Sys2Proof.Machine

/-- A byte sequence `BUF` with its length `LEN` (rule R30). `cells` lists, addresses rising, the bytes
that differ from what an unlisted address below `LEN` reads as (`Memory.unlisted`); an address at or
above `LEN` does not exist. -/
structure Memory where
  len   : Nat
  cells : List Host.Cell
  deriving DecidableEq, Repr

/-- A cursor value `(BUF, POS)` (rule R11). -/
structure Cursor where
  buf : Memory
  pos : Nat
  deriving DecidableEq, Repr

/-- The failing outcomes of an operation (`60_exceptions.md` rule R140). `UnknownCode` is not among
them: it is a value, `Unknown(code)` (rule R142). -/
inductive ErrorKind where
  | insufficientInput
  | contractViolation
  deriving DecidableEq, Repr

/-- `STATUS.kind` (rule R24). -/
inductive StatusKind where
  | ok
  | insufficientInput
  | contractViolation
  deriving DecidableEq, Repr

/-- `STATUS.stage` (rule R24); `noStage` is the spec's `None`. -/
inductive Stage where
  | noStage
  | ethernet
  | ipv4
  deriving DecidableEq, Repr

/-- `STATUS` (rule R24). -/
structure Status where
  kind  : StatusKind
  stage : Stage
  deriving DecidableEq, Repr

/-- The four fields of IPv4 word 0 (rule R53). -/
structure Word0 where
  version      : BitVec 4
  headerLength : BitVec 4
  dscp         : BitVec 6
  ecn          : BitVec 2
  deriving DecidableEq, Repr

/-- The nine checksum words `W0` to `W8` (rule R55). -/
structure CsumWords where
  w0 : U16
  w1 : U16
  w2 : U16
  w3 : U16
  w4 : U16
  w5 : U16
  w6 : U16
  w7 : U16
  w8 : U16
  deriving DecidableEq, Repr

/-- The values operations return (the result column of rule R57), and those a host reads. -/
inductive Value where
  /-- A TAKE_BITS result of `width` bits, zero-extended into 16 (rule R70). -/
  | bits (width : Nat) (value : U16)
  | bytes (bytes : List Byte)
  | payloadKind (kind : PayloadKind)
  | protocolKind (kind : ProtocolKind)
  | code8 (code : Byte)
  | fragmentation (value : Fragmentation)
  | word16 (word : U16)
  | word0 (fields : Word0)
  | ethHeader (header : EthernetHeader)
  | ipv4Header (header : IPV4Header)
  | words (words : CsumWords)
  | flag (value : Bool)
  | status (value : Status)
  | offset (value : Nat)
  deriving DecidableEq, Repr

/-- What the last call returned to the host: operations other than PARSE write no register, "their
results are returned values" (rule R29). This is the MODEL's own field (log entry 3). -/
inductive Returned where
  /-- No call has been made. -/
  | nothing
  /-- `Ok(v)`. -/
  | value (v : Value)
  /-- `Ok(v, c')`. -/
  | valueAt (v : Value) (c : Cursor)
  /-- `raise e`: the operation failed and produced nothing else. -/
  | raised (e : ErrorKind)
  /-- PARSE ended: its result is the record in the result registers. -/
  | record
  deriving DecidableEq, Repr

/-- What a host may read of a result (`70_reset_and_hazards.md` rule R178). -/
inductive ResultReg where
  | eth
  | ethPresent
  | ip4
  | ip4Present
  | csumOk
  | remStart
  | remainder
  | status
  | pos
  deriving DecidableEq, Repr

/-- One act of the host: a call, as the bytes of an instruction in their form, or the reading of a
result. The MODEL's own (log entry 3). -/
inductive Request where
  | call (form : Form) (bytes : List Byte)
  | read (reg : ResultReg)
  deriving DecidableEq, Repr

/-- Faults, each an error of the host in reading a result (rules R29 and R178: "reading an absent value
is an error of the host, not a value"; `93_implementation_defined.md` U13: fault). Raised by
`readResult` alone. Safe: the run stops where the spec gives no value. -/
inductive Fault where
  /-- Raised by a host's read of `ETH` while `ETH_PRESENT` = 0. Safe. -/
  | ethAbsent
  /-- Raised by a host's read of `IP4` while `IP4_PRESENT` = 0. Safe. -/
  | ip4Absent
  /-- Raised by a host's read of `CSUM_OK` while `IP4_PRESENT` = 0. Safe. -/
  | csumOkAbsent
  deriving DecidableEq, Repr

/-- Refusals: the machine gives such a call no meaning. -/
inductive Refusal where
  /-- Raised by an arm of exec whose instruction has no meaning yet; no arm is left so. Safe. -/
  | notModelled (mnemonic : String)
  /-- `ContractViolation` (rule R143: "A model should read this as refused"): raised by TAKE_BITS with
  a width outside 1 to 16, and by TAKE_BYTES, ETH_DECODE and IPV4_DECODE at an unaligned cursor. Safe. -/
  | contractViolation
  /-- Raised by the three operation indices 13 to 15, which name no operation (rule R57). A name of the
  model's own beside `contractViolation`, under which rule R140's table lists these indices too (log entry
  22). Safe. -/
  | noSuchOperation (op : Nat)
  /-- Raised by a call whose buffer is longer than `MAX_LEN` (`93_implementation_defined.md` U16). Safe. -/
  | inputTooLong
  /-- Raised by step on bytes that decode to no instruction. Safe. -/
  | undecodable (e : DecodeError)
  deriving DecidableEq, Repr

/-- The result registers, with the transaction's cursor offset: what PARSE writes, all together (rules
R29, R130, R134). A record that is absent, and a `CSUM_OK` beside an absent IPv4 header, holds NO VALUE,
in the spec's words "an Option with no value ... never a zero" (rule R29). -/
structure Record where
  /-- `POS`. -/
  pos        : Nat
  /-- `ETH`. -/
  eth        : Option EthernetHeader
  /-- `ETH_PRESENT`. -/
  ethPresent : Bool
  /-- `IP4`. -/
  ip4        : Option IPV4Header
  /-- `IP4_PRESENT`. -/
  ip4Present : Bool
  /-- `CSUM_OK`. -/
  csumOk     : Option Bool
  /-- `REM_START`. -/
  remStart   : Nat
  /-- `STATUS`. -/
  status     : Status
  deriving DecidableEq, Repr

/-- The result registers after reset (rule R170). -/
def Record.reset : Record :=
  { pos := 0, eth := none, ethPresent := false, ip4 := none, ip4Present := false, csumOk := none,
    remStart := 0, status := ⟨.ok, .noStage⟩ }

/-- The state of one parser instance: the whole of rule R10, the parameter `MAX_LEN`, and the model's own
`returned` and `pending`. -/
structure State where
  /-- `BUF` and `LEN`: the last transaction's bytes, kept until the next PARSE (DESIGN CHOICE, log entry
  23). -/
  buf      : Memory
  /-- The result registers and `POS`. -/
  result   : Record
  /-- `ETYPE_ROM` and `PROTO_ROM`. -/
  roms     : Roms
  /-- The parameter `MAX_LEN` (rule R6: OPEN); `none` is no bound. -/
  maxLen   : Option Nat
  /-- MODEL's own: what the last call returned. -/
  returned : Returned
  /-- MODEL's own: the host's acts to come, the next one first. -/
  pending  : List Request
  deriving DecidableEq, Repr

/-- The machine right after reset (rule R170): no input supplied (the spec gives BUF and LEN no reset
value: log entry 7), the result registers of the rule, the ROMs their constants. -/
def State.reset : State :=
  { buf := ⟨0, []⟩, result := .reset, roms := Config.roms, maxLen := Config.maxLen,
    returned := .nothing, pending := [] }

end Sys2Proof.Machine
end

