-- ==== Sys2Proof/Machine/Ops.lean ====
section
/-! DEFINITION. The named operations over the input buffer, and what an operation's success and its
failure do to the machine. The block writes no memory (`20_memory.md`): the only way a buffer comes to be
is the host's byte sequence, `Memory.ofBytes`. -/

namespace Sys2Proof.Machine

/-! ### The buffer -/

/-- What an address below `LEN` that is not listed reads as. The host supplies all `LEN` bytes of a
buffer, so this is a way of writing a buffer down and no value for an unwritten byte (log entry 8). -/
def Memory.unlisted : Byte := 0

/-- The listed byte at an address. -/
def Memory.lookup : List Host.Cell → Nat → Byte
  | [], _ => Memory.unlisted
  | (k, b) :: rest, a => if k = a then b else Memory.lookup rest a

/-- Byte `a` of a buffer, for an address below `LEN`. -/
def Memory.byteAt (m : Memory) (a : Nat) : Byte := Memory.lookup m.cells a

/-- `BUF[a]`: the addresses are 0 to `LEN - 1` (rule R30). -/
def Memory.read (m : Memory) (a : Nat) : Option Byte := if a < m.len then some (m.byteAt a) else none

/-- The cells of a byte sequence laid from address `a` on. -/
def Memory.cellsFrom : Nat → List Byte → List Host.Cell
  | _, [] => []
  | a, b :: rest =>
    if b = Memory.unlisted then Memory.cellsFrom (a + 1) rest else (a, b) :: Memory.cellsFrom (a + 1) rest

/-- The buffer holding the host's byte sequence: `BUF <- bytes ; LEN <- len(bytes)` (rule R130). -/
def Memory.ofBytes (bytes : List Byte) : Memory := ⟨bytes.length, Memory.cellsFrom 0 bytes⟩

/-- `MemRead(a, n) = BUF[a .. a+n)` (rule R7), for `a + n ≤ LEN`. -/
def Memory.readBytes (m : Memory) (a : Nat) : Nat → List Byte
  | 0 => []
  | n + 1 => m.byteAt a :: Memory.readBytes m (a + 1) n

/-- The whole byte sequence. -/
def Memory.toBytes (m : Memory) : List Byte := m.readBytes 0 m.len

/-- The canonical form of the cells from address `lo` on: addresses rising, below `LEN`, and no byte
that an unlisted address reads as. -/
def Memory.wfFrom (len : Nat) : Nat → List Host.Cell → Bool
  | _, [] => true
  | lo, (a, b) :: rest =>
    decide (lo ≤ a) && decide (a < len) && decide (b ≠ Memory.unlisted) && Memory.wfFrom len (a + 1) rest

/-- The canonical form: equal buffers are equal data. -/
def Memory.wf (m : Memory) : Bool := Memory.wfFrom m.len 0 m.cells

/-- `bit(p)`: bit `7 - (p mod 8)` of byte `BUF[p div 8]`, the most significant first (rule R34). -/
def Memory.bit (m : Memory) (p : Nat) : Bool := (m.byteAt (p / 8)).getLsbD (7 - p % 8)

/-- `MemReadBits(p, w)`: the first bit read is the most significant (rule R34). -/
def Memory.readBits (m : Memory) (p : Nat) : Nat → Nat
  | 0 => 0
  | w + 1 => 2 * Memory.readBits m p w + (m.bit (p + w)).toNat

/-- The remaining-input view `BUF[POS div 8 .. LEN)` of a byte-aligned cursor: "an unaligned cursor has no
byte view" (rule R73). -/
def Cursor.remaining (c : Cursor) : Option (List Byte) :=
  if c.pos % 8 = 0 then some (c.buf.readBytes (c.pos / 8) (c.buf.len - c.pos / 8)) else none

/-! ### Success and failure of an operation -/

/-- The state after a call that returned `r`: no register is written (rule R29). `BUF` keeps the last
transaction's bytes, which the spec fixes only until the result is complete. DESIGN CHOICE (log entry
23). -/
def State.setReturned (s : State) (r : Returned) : State := { s with returned := r }

/-- The state after a transaction over `buf`: all writes of rule R130 together (rule R134). -/
def State.setRecord (s : State) (buf : Memory) (result : Record) : State :=
  { s with buf := buf, result := result, returned := .record }

/-- An operation that returns: it writes nothing, its result is a returned value (rule R29). -/
def State.answer (s : State) (r : Returned) : Host.Outcome State Fault Refusal :=
  .next (s.setReturned r)

/-- Raising an error, this block's exception (rules R141, R143, R145, R146): there is no handler, no
vector and no saved register; the failing operation changes no register. `InsufficientInput` is what the
call returns, `ContractViolation` is a refusal. There is nothing to return from (rule R147). -/
def State.raise (s : State) : ErrorKind → Host.Outcome State Fault Refusal
  | .insufficientInput => s.answer (.raised .insufficientInput)
  | .contractViolation => .refused .contractViolation

/-- The end of a call that returns a value and a cursor, or raises. -/
def State.finish {α : Type} (s : State) (r : Except ErrorKind (α × Cursor)) (value : α → Value) :
    Host.Outcome State Fault Refusal :=
  match r with
  | .ok (a, c) => s.answer (.valueAt (value a) c)
  | .error e => s.raise e

/-- The state whose next request is being served. -/
def State.served (s : State) (rest : List Request) : State := { s with pending := rest }

/-- `LEN ≤ MAX_LEN` (rules R6, R30). -/
def State.admits (s : State) (len : Nat) : Bool :=
  match s.maxLen with
  | none => true
  | some bound => decide (len ≤ bound)

/-- A request served: the bytes of a call, put in front of the host's acts to come. -/
def State.withCall (s : State) (form : Form) (bytes : List Byte) : State :=
  { s with pending := .call form bytes :: s.pending }

end Sys2Proof.Machine
end

