-- ==== Sys2Proof/Machine/Operands.lean ====
section
/-! DEFINITION. The operand forms of the operations: cursors (`10_state.md` rule R11), and the assembly
of words out of fields and of addresses out of bytes (`30_encoding.md` rules R53 to R56). -/

namespace Sys2Proof.Machine

/-- The buffer of a cursor operand. That the held buffer still has the last transaction's bytes after its
result is complete is the model's choice. DESIGN CHOICE (log entry 23). -/
def bufOf (s : State) : BufArg → Memory
  | .held => s.buf
  | .given bytes => Memory.ofBytes bytes

/-- The cursor a cursor operand stands for. -/
def cursorOf (s : State) (c : CursorArg) : Cursor := ⟨bufOf s c.buf, c.pos⟩

/-- Whether the block can hold the buffer of a cursor operand: `LEN` is bounded by `MAX_LEN` (rule R30). -/
def fits (s : State) (c : CursorArg) : Bool :=
  match c.buf with
  | .held => true
  | .given bytes => s.admits bytes.length

/-- A call on a cursor operand. -/
def withCursor (s : State) (c : CursorArg) (k : Cursor → Host.Outcome State Fault Refusal) :
    Host.Outcome State Fault Refusal :=
  if fits s c then k (cursorOf s c) else .refused .inputTooLong

/-- The fields of word 0 out of the word (rule R53). -/
def splitWord0 (w : U16) : Word0 := ⟨word0Version w, word0HeaderLength w, word0Dscp w, word0Ecn w⟩

/-- `(version<<12 | header_length<<8 | DSCP<<2 | ECN)`, every operand zero-extended to 16 bits before
shifting (rule R120). -/
def joinWord0 (version headerLength : BitVec 4) (dscp : BitVec 6) (ecn : BitVec 2) : U16 :=
  (version.setWidth 16 <<< 12) ||| (headerLength.setWidth 16 <<< 8) ||| (dscp.setWidth 16 <<< 2)
    ||| ecn.setWidth 16

/-- `(hi << 8) | lo`, both zero-extended to 16 bits (rule R120): word `W4`, and a half of an address. -/
def joinBytes (hi lo : Byte) : U16 := (hi.setWidth 16 <<< 8) ||| lo.setWidth 16

/-- The four bytes of an address in decimal, first byte first (rule R112). -/
def dottedDecimal (a : Ip4Addr) : List Nat := a.bytes.map BitVec.toNat

end Sys2Proof.Machine
end

