-- ==== Sys2Proof/Machine/BitCursor.lean ====
section
/-! DEFINITION. The BitCursor operations TAKE_BITS and TAKE_BYTES (`40_bitcursor.md`), the block's only
way to read the input buffer. -/

namespace Sys2Proof.Machine

/-- TAKE_BITS (rule R70): the contract is tested first, then the length. `8·LEN < POS + width` is the
rule's `8·LEN − POS < width` over the integers. -/
def takeBits (c : Cursor) (width : Nat) : Except ErrorKind (U16 × Cursor) :=
  if width < Config.widthMin ∨ Config.widthMax < width then .error .contractViolation
  else if 8 * c.buf.len < c.pos + width then .error .insufficientInput
  else .ok (BitVec.ofNat 16 (c.buf.readBits c.pos width), ⟨c.buf, c.pos + width⟩)

/-- TAKE_BYTES (rule R72): alignment is tested first, then the length. -/
def takeBytes (c : Cursor) (n : Nat) : Except ErrorKind (List Byte × Cursor) :=
  if c.pos % 8 ≠ 0 then .error .contractViolation
  else if c.buf.len < c.pos / 8 + n then .error .insufficientInput
  else .ok (c.buf.readBytes (c.pos / 8) n, ⟨c.buf, c.pos + 8 * n⟩)

/-- TAKE_BITS, rule R70. -/
def execTakeBits (c : CursorArg) (width : Nat) (s : State) : Host.Outcome State Fault Refusal :=
  withCursor s c (fun cur => s.finish (takeBits cur width) (.bits width))

/-- TAKE_BYTES, rule R72. -/
def execTakeBytes (c : CursorArg) (n : Nat) (s : State) : Host.Outcome State Fault Refusal :=
  withCursor s c (fun cur => s.finish (takeBytes cur n) .bytes)

end Sys2Proof.Machine
end

