-- ==== Sys2Proof/Machine/Tables.lean ====
section
/-! DEFINITION. The lookup table operations ETYPE_LOOKUP, PROTO_LOOKUP and PROTO_CODE
(`41_lookup_tables.md`), and the rows of the two code tables (`30_encoding.md` rules R58, R59). -/

namespace Sys2Proof.Machine

/-- ETYPE_LOOKUP (rule R80): total, a code that is no key is carried in `Unknown`. -/
def etypeLookup (rom : EtypeRom) (code : U16) : PayloadKind :=
  if code = rom.ipv4 then .ipv4 else if code = rom.ipv6 then .ipv6 else .unknown code

/-- PROTO_LOOKUP (rule R82). -/
def protoLookup (rom : ProtoRom) (code : Byte) : ProtocolKind :=
  if code = rom.icmp then .icmp
  else if code = rom.tcp then .tcp
  else if code = rom.udp then .udp
  else .unknown code

/-- PROTO_CODE (rule R84), on every `ProtocolKind` (`92_eei_decisions.md` D15). -/
def protoCode (rom : ProtoRom) : ProtocolKind → Byte
  | .icmp => rom.icmp
  | .tcp => rom.tcp
  | .udp => rom.udp
  | .unknown code => code

/-- ETYPE_LOOKUP, rule R80. -/
def execEtypeLookup (code : U16) (s : State) : Host.Outcome State Fault Refusal :=
  s.answer (.value (.payloadKind (etypeLookup s.roms.etype code)))

/-- PROTO_LOOKUP, rule R82. -/
def execProtoLookup (code : Byte) (s : State) : Host.Outcome State Fault Refusal :=
  s.answer (.value (.protocolKind (protoLookup s.roms.proto code)))

/-- PROTO_CODE, rule R84. -/
def execProtoCode (kind : ProtocolKind) (s : State) : Host.Outcome State Fault Refusal :=
  s.answer (.value (.code8 (protoCode s.roms.proto kind)))

/-- ETYPE.IPV4: the key resolves to IPV4 (rule R58). -/
def execEtypeIpv4 (s : State) : Host.Outcome State Fault Refusal :=
  s.answer (.value (.payloadKind .ipv4))

/-- ETYPE.IPV6: the key resolves to IPV6 (rule R58). -/
def execEtypeIpv6 (s : State) : Host.Outcome State Fault Refusal :=
  s.answer (.value (.payloadKind .ipv6))

/-- ETYPE.UNKNOWN: the default row, tried after the key rows (rule R58). -/
def execEtypeUnknown (code : U16) (s : State) : Host.Outcome State Fault Refusal :=
  s.answer (.value (.payloadKind (etypeLookup s.roms.etype code)))

/-- PROTO.ICMP: the key resolves to ICMP (rule R59). -/
def execProtoIcmp (s : State) : Host.Outcome State Fault Refusal :=
  s.answer (.value (.protocolKind .icmp))

/-- PROTO.TCP: the key resolves to TCP (rule R59). -/
def execProtoTcp (s : State) : Host.Outcome State Fault Refusal :=
  s.answer (.value (.protocolKind .tcp))

/-- PROTO.UDP: the key resolves to UDP (rule R59). -/
def execProtoUdp (s : State) : Host.Outcome State Fault Refusal :=
  s.answer (.value (.protocolKind .udp))

/-- PROTO.UNKNOWN: the default row, tried after the key rows (rule R59). -/
def execProtoUnknown (code : Byte) (s : State) : Host.Outcome State Fault Refusal :=
  s.answer (.value (.protocolKind (protoLookup s.roms.proto code)))

end Sys2Proof.Machine
end

