-- ==== Sys2Proof/Machine/Ethernet.lean ====
section
/-! DEFINITION. The EthernetHeaderDecoder operation ETH_DECODE (`43_ethernet.md`) and the wire form
ETH_HDR (`30_encoding.md` rule R51). -/

namespace Sys2Proof.Machine

/-- TAKE_BYTES 6 as an address. A take of 6 bytes returns 6 bytes (Laws/BitCursor.lean), so the last
case is never reached. -/
def takeMac (c : Cursor) : Except ErrorKind (MacAddr × Cursor) :=
  match takeBytes c Config.macBytes with
  | .ok ([b0, b1, b2, b3, b4, b5], c') => .ok (⟨b0, b1, b2, b3, b4, b5⟩, c')
  | .ok _ => .error .insufficientInput
  | .error e => .error e

/-- ETH_DECODE (rules R63 and R100): TAKE_BYTES 6, TAKE_BYTES 6, TAKE_BITS 16, ETYPE_LOOKUP. -/
def ethDecode (rom : EtypeRom) (c0 : Cursor) : Except ErrorKind (EthernetHeader × Cursor) := do
  let (destination, c1) ← takeMac c0
  let (source, c2) ← takeMac c1
  let (code, c3) ← takeBits c2 16
  return (⟨destination, source, etypeLookup rom code⟩, c3)

/-- ETH_DECODE, rule R100. -/
def execEthDecode (c : CursorArg) (s : State) : Host.Outcome State Fault Refusal :=
  withCursor s c (fun cur => s.finish (ethDecode s.roms.etype cur) .ethHeader)

/-- ETH_HDR: the header record of the 14 bytes, the ethertype code resolved (rules R51, R100). -/
def execEthHdr (destination source : MacAddr) (code : U16) (s : State) :
    Host.Outcome State Fault Refusal :=
  s.answer (.value (.ethHeader ⟨destination, source, etypeLookup s.roms.etype code⟩))

end Sys2Proof.Machine
end

