-- ==== Sys2Proof/Machine/Fragmentation.lean ====
section
/-! DEFINITION. The Fragmentation Decoder: FRAG_DECODE and FRAG_ENCODE (`42_fragmentation.md`), and the
word rows FRAG.* and FRAG_ENC.*. -/

namespace Sys2Proof.Machine

/-- The two-variant value of the three fields that are not ignored (rule R90). -/
def fragOfFields (dontFragment moreFragments : Bool) (offset : BitVec 13) : Fragmentation :=
  if dontFragment then .noFragmentation else .fragmented moreFragments offset

/-- FRAG_DECODE (rule R90): the reserved bit is ignored, and so are the more-fragments bit and the
offset when don't-fragment is set. -/
def fragDecode (w : U16) : Fragmentation := fragOfFields (fragDont w) (fragMore w) (fragOffset w)

/-- FRAG_ENCODE (rule R92). -/
def fragEncode : Fragmentation → U16
  | .noFragmentation => 0x4000#16
  | .fragmented m o => ((if m then 1#16 else 0#16) <<< 13) ||| o.setWidth 16

/-- FRAG_DECODE, rule R90. -/
def execFragDecode (word : U16) (s : State) : Host.Outcome State Fault Refusal :=
  s.answer (.value (.fragmentation (fragDecode word)))

/-- FRAG_ENCODE, rule R92. -/
def execFragEncode (value : Fragmentation) (s : State) : Host.Outcome State Fault Refusal :=
  s.answer (.value (.word16 (fragEncode value)))

/-- FRAG.NOFRAG: `NoFragmentation`, the other bits ignored (rule R90). -/
def execFragNofrag (_reserved moreFragments : Bool) (offset : BitVec 13) (s : State) :
    Host.Outcome State Fault Refusal :=
  s.answer (.value (.fragmentation (fragOfFields true moreFragments offset)))

/-- FRAG.FRAGMENTED: `Fragmented`, the reserved bit ignored (rule R90). -/
def execFragFragmented (_reserved moreFragments : Bool) (offset : BitVec 13) (s : State) :
    Host.Outcome State Fault Refusal :=
  s.answer (.value (.fragmentation (fragOfFields false moreFragments offset)))

/-- FRAG_ENC.NOFRAG: the output word for `NoFragmentation` (rule R92). -/
def execFragEncNofrag (s : State) : Host.Outcome State Fault Refusal :=
  s.answer (.value (.word16 (fragEncode .noFragmentation)))

/-- FRAG_ENC.FRAGMENTED: the output word for `Fragmented` (rule R92). -/
def execFragEncFragmented (moreFragments : Bool) (offset : BitVec 13) (s : State) :
    Host.Outcome State Fault Refusal :=
  s.answer (.value (.word16 (fragEncode (.fragmented moreFragments offset))))

end Sys2Proof.Machine
end

