-- ==== Sys2Proof/Machine/Checksum.lean ====
section
/-! DEFINITION. The ChecksumValidator operations CSUM_WORDS, CSUM_FOLD and CSUM_VALIDATE
(`45_checksum.md`) and the word forms CSUM_W4 and CSUM_W5_TO_W8 (`30_encoding.md` rule R55). -/

namespace Sys2Proof.Machine

/-- CSUM_WORDS (rule R120): the stored checksum is not read. -/
def csumWords (rom : ProtoRom) (h : IPV4Header) : CsumWords where
  w0 := joinWord0 h.version h.headerLength h.differentiatedServicesCodepoint
    h.explicitCongestionNotification
  w1 := h.totalLength
  w2 := h.identification
  w3 := fragEncode h.fragmentation
  w4 := joinBytes h.timeToLive (protoCode rom h.protocol)
  w5 := joinBytes h.source.b0 h.source.b1
  w6 := joinBytes h.source.b2 h.source.b3
  w7 := joinBytes h.destination.b0 h.destination.b1
  w8 := joinBytes h.destination.b2 h.destination.b3

/-- The nine words in order. -/
def CsumWords.toList (w : CsumWords) : List U16 := [w.w0, w.w1, w.w2, w.w3, w.w4, w.w5, w.w6, w.w7, w.w8]

/-- The sum of the words "as unsigned 32-bit integers" (rule R124). -/
def csumSum (w : CsumWords) : U32 :=
  w.w0.setWidth 32 + w.w1.setWidth 32 + w.w2.setWidth 32 + w.w3.setWidth 32 + w.w4.setWidth 32
    + w.w5.setWidth 32 + w.w6.setWidth 32 + w.w7.setWidth 32 + w.w8.setWidth 32

/-- One pass of the fold, `(s & 0xFFFF) + (s >> 16)` (rule R122). -/
def foldPass (s : U32) : U32 := (s &&& 0xFFFF#32) + (s >>> 16)

/-- The fold loop with a bound on its passes. -/
def foldLoop : Nat → U32 → U32
  | 0, s => s
  | passes + 1, s => if 0xFFFF#32 < s then foldLoop passes (foldPass s) else s

/-- CSUM_FOLD (rule R122): "for any u32 at most two passes are needed", which Laws/Checksum.lean proves;
so two passes are the whole loop. -/
def csumFold (s : U32) : U16 := (foldLoop 2 s).setWidth 16

/-- The recomputed checksum: the complement of the folded sum (rule R124). -/
def csumComputed (rom : ProtoRom) (h : IPV4Header) : U16 := ~~~ csumFold (csumSum (csumWords rom h))

/-- CSUM_VALIDATE (rule R124): equality of two 16-bit patterns. -/
def csumValidate (rom : ProtoRom) (h : IPV4Header) : Bool :=
  decide (csumComputed rom h = h.headerChecksum)

/-- CSUM_WORDS, rule R120. -/
def execCsumWords (h : IPV4Header) (s : State) : Host.Outcome State Fault Refusal :=
  s.answer (.value (.words (csumWords s.roms.proto h)))

/-- CSUM_FOLD, rule R122. -/
def execCsumFold (sum : U32) (s : State) : Host.Outcome State Fault Refusal :=
  s.answer (.value (.word16 (csumFold sum)))

/-- CSUM_VALIDATE, rule R124: a wrong checksum is the result `false`, never a failure. -/
def execCsumValidate (h : IPV4Header) (s : State) : Host.Outcome State Fault Refusal :=
  s.answer (.value (.flag (csumValidate s.roms.proto h)))

/-- CSUM_W4: `(time_to_live<<8 | protocol_code)` (rule R55). -/
def execCsumW4 (timeToLive code : Byte) (s : State) : Host.Outcome State Fault Refusal :=
  s.answer (.value (.word16 (joinBytes timeToLive code)))

/-- CSUM_W5_TO_W8: one half of an address (rule R55). -/
def execCsumW5ToW8 (a b : Byte) (s : State) : Host.Outcome State Fault Refusal :=
  s.answer (.value (.word16 (joinBytes a b)))

end Sys2Proof.Machine
end

