-- ==== Sys2Proof/Machine/Flags.lean ====
section
/-! DEFINITION. The three flags `ETH_PRESENT`, `IP4_PRESENT` and `CSUM_OK`, the status value and the other
result registers, as each of the three ends of a transaction leaves them (`10_state.md` rules R21 to R24,
`46_parse.md` rule R130), and the host's reading of them. -/

namespace Sys2Proof.Machine

/-- The status kind of an error (rule R24). -/
def ErrorKind.status : ErrorKind → StatusKind
  | .insufficientInput => .insufficientInput
  | .contractViolation => .contractViolation

/-- The numbers of `STATUS.kind` (rule R24; the spec's own, no rule depends on them). -/
def StatusKind.code : StatusKind → Nat
  | .ok => 0
  | .insufficientInput => 1
  | .contractViolation => 2

/-- The numbers of `STATUS.stage` (rule R24; the spec's own, no rule depends on them). -/
def Stage.code : Stage → Nat
  | .noStage => 0
  | .ethernet => 1
  | .ipv4 => 2

/-- The record of a transaction whose Ethernet stage raised `e`: the remainder is all of `BUF`. -/
def ethFailed (e : ErrorKind) : Record :=
  { pos := 0, eth := none, ethPresent := false, ip4 := none, ip4Present := false, csumOk := none,
    remStart := 0, status := ⟨e.status, .ethernet⟩ }

/-- The record of a transaction whose IPv4 stage raised `e`: the Ethernet header stays, the remainder
is `BUF[14 .. LEN)` (rule R130; `92_eei_decisions.md` D10). -/
def ipv4Failed (h : EthernetHeader) (e : ErrorKind) : Record :=
  { pos := 112, eth := some h, ethPresent := true, ip4 := none, ip4Present := false, csumOk := none,
    remStart := 14, status := ⟨e.status, .ipv4⟩ }

/-- The record of a transaction both of whose stages succeeded; a wrong checksum is no error. -/
def bothDecoded (h : EthernetHeader) (ip : IPV4Header) (ok : Bool) : Record :=
  { pos := 272, eth := some h, ethPresent := true, ip4 := some ip, ip4Present := true, csumOk := some ok,
    remStart := 34, status := ⟨.ok, .noStage⟩ }

/-- The remainder `BUF[REM_START .. LEN)` (rule R23). -/
def State.remainder (s : State) : List Byte :=
  s.buf.readBytes s.result.remStart (s.buf.len - s.result.remStart)

/-- A value that is there is read; an absent one is the fault `f` (rule R29). -/
def State.readPresent {α : Type} (s : State) (present : Bool) (v : Option α) (value : α → Value)
    (f : Fault) : Host.Outcome State Fault Refusal :=
  match present, v with
  | true, some a => s.answer (.value (value a))
  | _, _ => .fault f

/-- The host reads a result (`70_reset_and_hazards.md` rules R177(e), R178): a header only if its flag
is 1, `CSUM_OK` only if `IP4_PRESENT` is 1; the flags, the status, the offset and the remainder always. -/
def readResult (r : ResultReg) (s : State) : Host.Outcome State Fault Refusal :=
  match r with
  | .eth => s.readPresent s.result.ethPresent s.result.eth .ethHeader .ethAbsent
  | .ip4 => s.readPresent s.result.ip4Present s.result.ip4 .ipv4Header .ip4Absent
  | .csumOk => s.readPresent s.result.ip4Present s.result.csumOk .flag .csumOkAbsent
  | .ethPresent => s.answer (.value (.flag s.result.ethPresent))
  | .ip4Present => s.answer (.value (.flag s.result.ip4Present))
  | .remStart => s.answer (.value (.offset s.result.remStart))
  | .remainder => s.answer (.value (.bytes s.remainder))
  | .status => s.answer (.value (.status s.result.status))
  | .pos => s.answer (.value (.offset s.result.pos))

end Sys2Proof.Machine
end

