-- ==== Sys2Proof/Machine/Ipv4.lean ====
section
/-! DEFINITION. The IPv4HeaderDecoder operation IPV4_DECODE (`44_ipv4.md`) and the wire forms IPV4_HDR
and IPV4_W0 (`30_encoding.md` rules R52, R53). -/

namespace Sys2Proof.Machine

/-- TAKE_BYTES 4 as an address. A take of 4 bytes returns 4 bytes (Laws/BitCursor.lean), so the third
case is never reached. -/
def takeIp4Addr (c : Cursor) : Except ErrorKind (Ip4Addr × Cursor) :=
  match takeBytes c Config.ip4AddrBytes with
  | .ok ([b0, b1, b2, b3], c') => .ok (⟨b0, b1, b2, b3⟩, c')
  | .ok _ => .error .insufficientInput
  | .error e => .error e

/-- TAKE_BITS 8 as a byte. -/
def takeByte (c : Cursor) : Except ErrorKind (Byte × Cursor) := do
  let (v, c') ← takeBits c 8
  return (v.setWidth 8, c')

/-- IPV4_DECODE (rules R63 and R110): alignment at entry, then the fields (a) to (i) in wire order. -/
def ipv4Decode (rom : ProtoRom) (c0 : Cursor) : Except ErrorKind (IPV4Header × Cursor) :=
  if c0.pos % 8 ≠ 0 then .error .contractViolation
  else do
    let (w0, c1) ← takeBits c0 16
    let (totalLength, c2) ← takeBits c1 16
    let (identification, c3) ← takeBits c2 16
    let (fw, c4) ← takeBits c3 16
    let (timeToLive, c5) ← takeByte c4
    let (pcode, c6) ← takeByte c5
    let (headerChecksum, c7) ← takeBits c6 16
    let (source, c8) ← takeIp4Addr c7
    let (destination, c9) ← takeIp4Addr c8
    return (⟨(splitWord0 w0).version, (splitWord0 w0).headerLength, (splitWord0 w0).dscp,
      (splitWord0 w0).ecn, totalLength, identification, fragDecode fw, timeToLive,
      protoLookup rom pcode, headerChecksum, source, destination⟩, c9)

/-- IPV4_DECODE, rule R110. -/
def execIpv4Decode (c : CursorArg) (s : State) : Host.Outcome State Fault Refusal :=
  withCursor s c (fun cur => s.finish (ipv4Decode s.roms.proto cur) .ipv4Header)

/-- The header record of the wire's fields: the fragmentation word and the protocol code resolved. -/
def headerOfWire (rom : ProtoRom) (w : Ipv4Wire) : IPV4Header :=
  ⟨w.version, w.headerLength, w.dscp, w.ecn, w.totalLength, w.identification,
    fragOfFields w.dontFragment w.moreFragments w.offset, w.timeToLive,
    protoLookup rom w.protocolCode, w.headerChecksum, w.source, w.destination⟩

/-- IPV4_HDR: the header record of the 20 bytes (rules R52, R110). -/
def execIpv4Hdr (w : Ipv4Wire) (s : State) : Host.Outcome State Fault Refusal :=
  s.answer (.value (.ipv4Header (headerOfWire s.roms.proto w)))

/-- IPV4_W0: the four fields of the word (rule R53). -/
def execIpv4W0 (version headerLength : BitVec 4) (dscp : BitVec 6) (ecn : BitVec 2) (s : State) :
    Host.Outcome State Fault Refusal :=
  s.answer (.value (.word0 ⟨version, headerLength, dscp, ecn⟩))

end Sys2Proof.Machine
end

