-- ==== Sys2Proof/Machine/Parse.lean ====
section
/-! DEFINITION. The top-level operation PARSE (`46_parse.md`) and the three operation indices that name no
operation (`30_encoding.md` rule R57). -/

namespace Sys2Proof.Machine

/-- The result record of a transaction over a buffer (rules R63 and R130): Ethernet stage, IPv4 stage,
checksum, stopping at the first failure; the IPv4 stage is not gated by the payload kind (rule R131). -/
def parseRecord (roms : Roms) (buf : Memory) : Record :=
  match ethDecode roms.etype ⟨buf, 0⟩ with
  | .error e => ethFailed e
  | .ok (eth, c1) =>
    match ipv4Decode roms.proto c1 with
    | .error e => ipv4Failed eth e
    | .ok (ip4, _) => bothDecoded eth ip4 (csumValidate roms.proto ip4)

/-- PARSE, rule R130: all writes take effect together (rule R134). A request longer than `MAX_LEN` is
refused (`93_implementation_defined.md` U16). -/
def execParse (bytes : List Byte) (s : State) : Host.Outcome State Fault Refusal :=
  if s.admits bytes.length then
    .next (s.setRecord (Memory.ofBytes bytes) (parseRecord s.roms (Memory.ofBytes bytes)))
  else .refused .inputTooLong

/-- Index 13 names no operation: "a model refuses them" (rule R57). -/
def execOpReserved13 (_s : State) : Host.Outcome State Fault Refusal := .refused (.noSuchOperation 13)

/-- Index 14 names no operation (rule R57). -/
def execOpReserved14 (_s : State) : Host.Outcome State Fault Refusal := .refused (.noSuchOperation 14)

/-- Index 15 names no operation (rule R57). -/
def execOpReserved15 (_s : State) : Host.Outcome State Fault Refusal := .refused (.noSuchOperation 15)

end Sys2Proof.Machine
end

