-- ==== Sys2Proof/Machine/Dispatch.lean ====
section
/-! DEFINITION. One arm per instruction, each one direct call of its meaning. -/

namespace Sys2Proof.Machine

/-- The meaning of an instruction: a next state, a fault or a refusal. -/
def exec (i : Instr) (s : State) : Host.Outcome State Fault Refusal :=
  match i with
  | .takeBits c width => Sys2Proof.Machine.execTakeBits c width s
  | .takeBytes c n => Sys2Proof.Machine.execTakeBytes c n s
  | .etypeLookup code => Sys2Proof.Machine.execEtypeLookup code s
  | .protoLookup code => Sys2Proof.Machine.execProtoLookup code s
  | .protoCode kind => Sys2Proof.Machine.execProtoCode kind s
  | .fragDecode word => Sys2Proof.Machine.execFragDecode word s
  | .fragEncode value => Sys2Proof.Machine.execFragEncode value s
  | .ethDecode c => Sys2Proof.Machine.execEthDecode c s
  | .ipv4Decode c => Sys2Proof.Machine.execIpv4Decode c s
  | .csumWords h => Sys2Proof.Machine.execCsumWords h s
  | .csumFold sum => Sys2Proof.Machine.execCsumFold sum s
  | .csumValidate h => Sys2Proof.Machine.execCsumValidate h s
  | .parse bytes => Sys2Proof.Machine.execParse bytes s
  | .opReserved13 => Sys2Proof.Machine.execOpReserved13 s
  | .opReserved14 => Sys2Proof.Machine.execOpReserved14 s
  | .opReserved15 => Sys2Proof.Machine.execOpReserved15 s
  | .ethHdr destination source code => Sys2Proof.Machine.execEthHdr destination source code s
  | .ipv4Hdr w => Sys2Proof.Machine.execIpv4Hdr w s
  | .ipv4W0 version headerLength dscp ecn => Sys2Proof.Machine.execIpv4W0 version headerLength dscp ecn s
  | .fragNofrag reserved more offset => Sys2Proof.Machine.execFragNofrag reserved more offset s
  | .fragFragmented reserved more offset => Sys2Proof.Machine.execFragFragmented reserved more offset s
  | .fragEncNofrag => Sys2Proof.Machine.execFragEncNofrag s
  | .fragEncFragmented more offset => Sys2Proof.Machine.execFragEncFragmented more offset s
  | .csumW4 timeToLive code => Sys2Proof.Machine.execCsumW4 timeToLive code s
  | .csumW5ToW8 a b => Sys2Proof.Machine.execCsumW5ToW8 a b s
  | .etypeIpv4 => Sys2Proof.Machine.execEtypeIpv4 s
  | .etypeIpv6 => Sys2Proof.Machine.execEtypeIpv6 s
  | .etypeUnknown code => Sys2Proof.Machine.execEtypeUnknown code s
  | .protoIcmp => Sys2Proof.Machine.execProtoIcmp s
  | .protoTcp => Sys2Proof.Machine.execProtoTcp s
  | .protoUdp => Sys2Proof.Machine.execProtoUdp s
  | .protoUnknown code => Sys2Proof.Machine.execProtoUnknown code s

end Sys2Proof.Machine
end

