-- ==== Sys2Proof/Machine/Step.lean ====
section
/-! DEFINITION. One step: the machine serves the host's next act. The block fetches no instructions
(`20_memory.md` rule R44); what it is asked to do comes from the host (log entry 3). -/

namespace Sys2Proof.Machine

/-- The next act of the host is taken off the list and served: a call is decoded and executed, a result
is read. With no act to come the block does nothing: no operation is pending (rule R134), nothing waits
(rule R157). -/
def step (s : State) : Host.Outcome State Fault Refusal :=
  match s.pending with
  | [] => .next s
  | .read reg :: rest => readResult reg (s.served rest)
  | .call form bytes :: rest =>
    match decode s.roms form bytes with
    | .ok i => exec i (s.served rest)
    | .error e => .refused (.undecodable e)

/-- `s` with a table word placed as the host's next act, so that the next step runs it. The program of
this block is the host's acts: a run comes about by the host placing them (log entry 3). -/
def State.withFetchWord (s : State) (nbits w : Nat) : State :=
  s.withCall (tableRequest nbits w).1 (tableRequest nbits w).2

end Sys2Proof.Machine
end

