-- ==== Sys2Proof/Safety.lean ====
section
/-! DEFINITION. What claims call a good state and a safe run. -/

namespace Sys2Proof.Machine

/-- The result registers agree with one another and with a buffer of `len` bytes: a record is there
exactly when its flag is 1, `CSUM_OK` exactly when `IP4_PRESENT` is 1 (rules R21, R29), an IPv4 header
only beside an Ethernet header (rule R21), `0 ≤ REM_START ≤ LEN` (rule R23), `POS ≤ 8·LEN` (rule R11) at
the first bit of the remainder, and the status names the stage that failed, never `ContractViolation`
(rules R24, R132). -/
def Record.coherent (len : Nat) (r : Record) : Bool :=
  decide (r.eth.isSome = r.ethPresent) && decide (r.ip4.isSome = r.ip4Present)
    && decide (r.csumOk.isSome = r.ip4Present) && (!r.ip4Present || r.ethPresent)
    && decide (r.remStart ≤ len) && decide (r.pos = 8 * r.remStart)
    && match r.status.kind, r.status.stage with
      | .ok, .noStage => decide (r.ethPresent = r.ip4Present)
      | .insufficientInput, .ethernet => !r.ethPresent
      | .insufficientInput, .ipv4 => r.ethPresent && !r.ip4Present
      | _, _ => false

/-- The result registers hold what some transaction leaves: nothing yet, or the record of PARSE over the
buffer in `BUF` (rules R28, R29, R134). -/
def State.resultOfBuf (s : State) : Prop :=
  s.result = Record.reset ∨ s.result = parseRecord s.roms s.buf

/-- The invariant of every run: the buffer in its canonical form, the tables as rule R6 wants them, and
the result registers the outcome of a transaction over `BUF`. -/
def State.Inv (s : State) : Prop := s.buf.wf = true ∧ s.roms.wf = true ∧ s.resultOfBuf

/-- Same input buffer, result registers, tables and bound: everything of rule R10 and the parameters. -/
def State.sameRegisters (s t : State) : Prop :=
  t.buf = s.buf ∧ t.result = s.result ∧ t.roms = s.roms ∧ t.maxLen = s.maxLen

/-- The states `k` steps of a run reach, none of them a fault or a refusal. -/
inductive Reaches : State → State → Prop where
  | here (s : State) : Reaches s s
  | next {s t u : State} : Reaches s t → step t = .next u → Reaches s u

/-- The Ethernet header of fourteen bytes, read off the layout of rule R51 byte by byte, without the
cursor. -/
def Layout.ethHeader (rom : EtypeRom) (d0 d1 d2 d3 d4 d5 s0 s1 s2 s3 s4 s5 t1 t0 : Byte) : EthernetHeader :=
  ⟨⟨d0, d1, d2, d3, d4, d5⟩, ⟨s0, s1, s2, s3, s4, s5⟩, etypeLookup rom (t1 ++ t0)⟩

/-- The IPv4 header of twenty bytes, read off the layouts of rules R52 and R54 byte by byte, without the
cursor. -/
def Layout.ipv4Header (rom : ProtoRom)
    (a0 a1 l1 l0 i1 i0 f1 f0 ttl pc c1 c0 s0 s1 s2 s3 d0 d1 d2 d3 : Byte) : IPV4Header where
  version := a0.extractLsb' 4 4
  headerLength := a0.extractLsb' 0 4
  differentiatedServicesCodepoint := a1.extractLsb' 2 6
  explicitCongestionNotification := a1.extractLsb' 0 2
  totalLength := l1 ++ l0
  identification := i1 ++ i0
  fragmentation :=
    if f1.getLsbD 6 then .noFragmentation else .fragmented (f1.getLsbD 5) ((f1 ++ f0).extractLsb' 0 13)
  timeToLive := ttl
  protocol := protoLookup rom pc
  headerChecksum := c1 ++ c0
  source := ⟨s0, s1, s2, s3⟩
  destination := ⟨d0, d1, d2, d3⟩

/-- A take asked for in a sequence of takes (rule R71). -/
inductive Take where
  | bits (width : Nat)
  | bytes (n : Nat)
  deriving DecidableEq, Repr

/-- The bits a take asks for. -/
def Take.size : Take → Nat
  | .bits width => width
  | .bytes n => 8 * n

/-- The operation a take is, at a cursor. -/
def Take.instr (c : CursorArg) : Take → Instr
  | .bits width => .takeBits c width
  | .bytes n => .takeBytes c n

/-- A sequence of takes, each given the cursor the one before returned (rule R177(a)): the last cursor, if
every take succeeds. -/
def runTakes (s : State) : List Take → CursorArg → Option CursorArg
  | [], c => some c
  | t :: rest, c =>
    match exec (t.instr c) s with
    | .next u =>
      match u.returned with
      | .valueAt _ c' => runTakes s rest ⟨c.buf, c'.pos⟩
      | _ => none
    | _ => none

/-- Every TAKE_BYTES of a sequence that starts at offset `pos` falls on a byte boundary. -/
def takesAligned : Nat → List Take → Bool
  | _, [] => true
  | pos, .bits width :: rest => takesAligned (pos + width) rest
  | pos, .bytes n :: rest => decide (pos % 8 = 0) && takesAligned (pos + 8 * n) rest

/-- One pass of the fold over the integers: the carry beyond bit 15 added to the low 16 bits (rule
R122). -/
def onePass (n : Nat) : Nat := n % 2 ^ 16 + n / 2 ^ 16

/-- The nine words with bit `k` of word `j` flipped. -/
def CsumWords.flip (w : CsumWords) (j k : Nat) : CsumWords :=
  let x (n : Nat) (v : U16) : U16 := if j = n then v ^^^ (1#16 <<< k) else v
  ⟨x 0 w.w0, x 1 w.w1, x 2 w.w2, x 3 w.w3, x 4 w.w4, x 5 w.w5, x 6 w.w6, x 7 w.w7, x 8 w.w8⟩

end Sys2Proof.Machine
end

