-- ==== Sys2Proof/Certificates/Slice0/Obligations.lean ====
section
/-! DEFINITION. The statements about the machine, from the numbered rules of spec/. A statement of the form
`exec i s = .next (s.setReturned r)` says the instruction completes, what it returns, and its whole
FRAME: `setReturned` changes the field `returned` and nothing else. -/

open Sys2Proof Sys2Proof.Machine

/-! ### Reset, steps and invariants -/

/-- `70_reset_and_hazards.md` rule R170. The ROM keys are the spec's default parameters (log entry 1), the
empty buffer and the absent bound are the model's choices (log entries 7 and 2). -/
def Obligations.ResetHoldsTheResetTable : Prop :=
  State.reset.result.pos = 0 ∧ State.reset.result.ethPresent = false ∧
  State.reset.result.ip4Present = false ∧ State.reset.result.eth = none ∧
  State.reset.result.ip4 = none ∧ State.reset.result.csumOk = none ∧
  State.reset.result.remStart = 0 ∧ State.reset.result.status = ⟨.ok, .noStage⟩ ∧
  State.reset.roms = ⟨⟨0x0800, 0x86DD⟩, ⟨0x01, 0x06, 0x11⟩⟩ ∧
  State.reset.buf.toBytes = [] ∧ State.reset.maxLen = none

/-- The invariant holds after reset. -/
def Obligations.ResetIsGood : Prop := State.reset.Inv

/-- Every step keeps the invariant: canonical buffer, tables as rule R6 wants them, and result registers
that hold the outcome of a transaction over `BUF` (rules R28, R29, R33, R134). That `BUF` and the result
registers keep the last transaction's contents until the next one is the model's (log entries 23 and 20). -/
def Obligations.EveryStepKeepsTheInvariant : Prop :=
  ∀ s t : State, s.Inv → step s = .next t → t.Inv

/-- Along every run the invariant holds, and the registers agree with one another and with `BUF`: the
flags with the records, `REM_START ≤ LEN`, `POS ≤ 8·LEN`, the status never ContractViolation. That `BUF` and
the result registers are kept between transactions is the model's (log entries 23 and 20). -/
def Obligations.RunsKeepRegistersCoherent : Prop :=
  ∀ s t : State, s.Inv → Reaches s t → t.Inv ∧ t.result.coherent t.buf.len = true

/-- No step and no run changes a lookup table or the length bound (rules R33 and R86). -/
def Obligations.RunsNeverWriteTheTables : Prop :=
  ∀ s t : State, Reaches s t → t.roms = s.roms ∧ t.maxLen = s.maxLen

/-- A step serves the host's next act: bytes that decode to an instruction are executed, in the state
whose list of acts is past them, bytes that decode to none are refused, and with no act to come the block
does nothing. How acts come to the block is the model's own (log entry 3). -/
def Obligations.StepExecutesTheDecodedCall : Prop :=
  ∀ (s : State) (form : Form) (bytes : List Byte) (rest : List Request),
    s.pending = .call form bytes :: rest →
    (∀ i, decode s.roms form bytes = .ok i → step s = exec i (s.served rest)) ∧
    (∀ e, decode s.roms form bytes = .error e → step s = .refused (.undecodable e)) ∧
    (∀ t : State, t.pending = [] → step t = .next t)

/-- A step on the encoded bytes of a well-formed instruction executes that instruction. -/
def Obligations.StepExecutesTheEncodedInstruction : Prop :=
  ∀ (s : State) (i : Instr), s.roms.wf = true → i.wellFormed s.roms = true →
    step (s.withCall (formOf i) (encode s.roms i)) = exec i s

/-- A host's read of an absent header, or of `CSUM_OK` beside an absent IPv4 header, is a fault and
never a zero; of a present one it gives the register's value and writes none (rules R29, R177(e), R178).
How a read comes to the block is the model's own (log entry 3), and that an absent value faults is log
entry 11. -/
def Obligations.ReadingAnAbsentRecordFaults : Prop :=
  ∀ (s : State) (reg : ResultReg) (rest : List Request), s.pending = .read reg :: rest →
    (reg = .eth → s.result.ethPresent = false → step s = .fault .ethAbsent) ∧
    (reg = .ip4 → s.result.ip4Present = false → step s = .fault .ip4Absent) ∧
    (reg = .csumOk → s.result.ip4Present = false → step s = .fault .csumOkAbsent) ∧
    (∀ h, reg = .eth → s.result.ethPresent = true → s.result.eth = some h →
      step s = .next ((s.served rest).setReturned (.value (.ethHeader h)))) ∧
    (∀ h, reg = .ip4 → s.result.ip4Present = true → s.result.ip4 = some h →
      step s = .next ((s.served rest).setReturned (.value (.ipv4Header h)))) ∧
    (∀ b, reg = .csumOk → s.result.ip4Present = true → s.result.csumOk = some b →
      step s = .next ((s.served rest).setReturned (.value (.flag b))))

/-- The flags, the remainder start, the status, the offset and the remainder `BUF[REM_START .. LEN)` can
always be read, and reading them writes no register (rules R21, R23, R24, R178). How a read comes to the
block is the model's own (log entry 3), and so is that `BUF` still holds the remainder's bytes (log entry
23). -/
def Obligations.OtherResultsCanAlwaysBeRead : Prop :=
  ∀ (s : State) (reg : ResultReg) (rest : List Request), s.pending = .read reg :: rest →
    (reg = .ethPresent →
      step s = .next ((s.served rest).setReturned (.value (.flag s.result.ethPresent)))) ∧
    (reg = .ip4Present →
      step s = .next ((s.served rest).setReturned (.value (.flag s.result.ip4Present)))) ∧
    (reg = .remStart →
      step s = .next ((s.served rest).setReturned (.value (.offset s.result.remStart)))) ∧
    (reg = .status → step s = .next ((s.served rest).setReturned (.value (.status s.result.status)))) ∧
    (reg = .pos → step s = .next ((s.served rest).setReturned (.value (.offset s.result.pos)))) ∧
    (reg = .remainder →
      step s = .next ((s.served rest).setReturned (.value (.bytes (s.buf.toBytes.drop s.result.remStart)))))

/-- In a good state the presence flag alone decides whether a header can be read. How a read comes to the
block is the model's own (log entry 3). -/
def Obligations.PresentRecordsCanBeRead : Prop :=
  ∀ (s : State) (rest : List Request), s.Inv →
    (s.pending = .read .eth :: rest → s.result.ethPresent = true →
      ∃ h, step s = .next ((s.served rest).setReturned (.value (.ethHeader h)))) ∧
    (s.pending = .read .ip4 :: rest → s.result.ip4Present = true →
      ∃ h, step s = .next ((s.served rest).setReturned (.value (.ipv4Header h)))) ∧
    (s.pending = .read .csumOk :: rest → s.result.ip4Present = true →
      ∃ b, step s = .next ((s.served rest).setReturned (.value (.flag b))))

/-! ### Encoding -/

/-- Decoding what the encoder writes gives the instruction back, for every well-formed instruction and
every value of its operands. -/
def Obligations.DecodeUndoesEncode : Prop :=
  ∀ (i : Instr) (roms : Roms), roms.wf = true → i.wellFormed roms = true →
    decode roms (formOf i) (encode roms i) = .ok i

/-- No wire or word form loses a bit: a byte string of the form's length that decodes to an instruction
is what the encoder writes for it (rules R51 to R55, R58, R59). -/
def Obligations.WireFormsKeepEveryBit : Prop :=
  ∀ (roms : Roms) (form : Form) (bytes : List Byte) (i : Instr),
    (form = .ethHdr → bytes.length = 14) → (form = .ipv4Hdr → bytes.length = 20) →
    (form = .protoCode → bytes.length = 1) →
    (form ≠ .ethHdr → form ≠ .ipv4Hdr → form ≠ .protoCode → bytes.length = 2) → form ≠ .op →
    decode roms form bytes = .ok i → formOf i = form ∧ encode roms i = bytes

/-- Words written out from the spec's encodings decode to the instructions they stand for: the operation
indices 0010 and 1100 (rule R57), 0x4FB9 as word 0 (rule R53, the spec's vector V39), the fragmentation
words 0x2002 and 0x4000 of the §8 examples (rule R54), and the table codes 0x86DD, 0x06 and 0x99 (rules R58,
R59). That a call's operand bytes follow an index byte is the model's serialisation (log entry 4); the keys
are those of reset, among which 0x86DD is the spec's default and not the source's (log entry 1). -/
def Obligations.WrittenWordsDecode : Prop :=
  decode Config.roms .op [0b00000010, 0x12, 0x34] = .ok (.etypeLookup 0x1234) ∧
  decode Config.roms .op [0b00001100, 0xDE, 0xAD] = .ok (.parse [0xDE, 0xAD]) ∧
  decode Config.roms .word0 [0b01001111, 0b10111001] = .ok (.ipv4W0 4 15 46 1) ∧
  decode Config.roms .fragWord [0b00100000, 0b00000010] = .ok (.fragFragmented false true 2) ∧
  decode Config.roms .fragWord [0b01000000, 0b00000000] = .ok (.fragNofrag false false 0) ∧
  decode Config.roms .etypeCode [0b10000110, 0b11011101] = .ok .etypeIpv6 ∧
  decode Config.roms .protoCode [0b00000110] = .ok .protoTcp ∧
  decode Config.roms .protoCode [0b10011001] = .ok (.protoUnknown 0x99)

/-- The operation index has four bits and 13 to 15 name no operation, so they are refused (rule R57, the
spec's own decision D3). That an index is carried in a byte in front of the operands, and that an index
byte above 15 is no call, is the model's serialisation (log entry 4); that the refusal has a name of its
own, where rule R140's table lists these indices under ContractViolation, is the model's too (log entry
22). -/
def Obligations.ReservedIndicesAreRefused : Prop :=
  ∀ (roms : Roms) (args : List Byte) (s : State),
    decode roms .op (13 :: args) = .ok .opReserved13 ∧ exec .opReserved13 s = .refused (.noSuchOperation 13) ∧
    decode roms .op (14 :: args) = .ok .opReserved14 ∧ exec .opReserved14 s = .refused (.noSuchOperation 14) ∧
    decode roms .op (15 :: args) = .ok .opReserved15 ∧ exec .opReserved15 s = .refused (.noSuchOperation 15) ∧
    ∀ op : Byte, 15 < op.toNat → decode roms .op (op :: args) = .error (.badOpByte op)

/-- The wire form ETH_HDR of fourteen bytes and ETH_DECODE at offset 0 of a buffer that begins with them
return the same header (rules R51 and R100). That the row ETH_HDR, executed, returns the resolved header is
the model's reading (log entry 13). -/
def Obligations.EthWireFormAgreesWithDecoder : Prop :=
  ∀ (s : State) (hdr post : List Byte), hdr.length = 14 → fits s ⟨.given (hdr ++ post), 0⟩ = true →
    ∃ i h, decode s.roms .ethHdr hdr = .ok i ∧
      exec i s = .next (s.setReturned (.value (.ethHeader h))) ∧
      exec (.ethDecode ⟨.given (hdr ++ post), 0⟩) s
        = .next (s.setReturned (.valueAt (.ethHeader h) ⟨Memory.ofBytes (hdr ++ post), 112⟩))

/-- The wire form IPV4_HDR of twenty bytes and IPV4_DECODE at offset 0 of a buffer that begins with them
return the same header (rules R52 and R110). That the row IPV4_HDR, executed, returns the resolved header
is the model's reading (log entry 13). -/
def Obligations.Ipv4WireFormAgreesWithDecoder : Prop :=
  ∀ (s : State) (hdr post : List Byte), hdr.length = 20 → fits s ⟨.given (hdr ++ post), 0⟩ = true →
    ∃ i h, decode s.roms .ipv4Hdr hdr = .ok i ∧
      exec i s = .next (s.setReturned (.value (.ipv4Header h))) ∧
      exec (.ipv4Decode ⟨.given (hdr ++ post), 0⟩) s
        = .next (s.setReturned (.valueAt (.ipv4Header h) ⟨Memory.ofBytes (hdr ++ post), 160⟩))

/-- Rule R53: the four fields of word 0, and the validator's formula as their inverse. That the row IPV4_W0,
executed, returns the four fields and changes nothing else is the model's reading (log entry 13). -/
def Obligations.Word0SplitsAndJoins : Prop :=
  ∀ (roms : Roms) (w : U16) (s : State), ∃ v h d e,
    decode roms .word0 [w.extractLsb' 8 8, w.extractLsb' 0 8] = .ok (.ipv4W0 v h d e) ∧
    exec (.ipv4W0 v h d e) s = .next (s.setReturned (.value (.word0 ⟨v, h, d, e⟩))) ∧
    v = w.extractLsb' 12 4 ∧ h = w.extractLsb' 8 4 ∧ d = w.extractLsb' 2 6 ∧ e = w.extractLsb' 0 2 ∧
    (v.setWidth 16 <<< 12) ||| (h.setWidth 16 <<< 8) ||| (d.setWidth 16 <<< 2) ||| e.setWidth 16 = w

/-! ### The buffer and the cursor -/

/-- A buffer the host supplies reads, byte by byte, as the host's sequence, has no byte beyond its end
(rules R30, R38, R41), and is in the canonical form, in which it is determined by its bytes. -/
def Obligations.BufferIsTheHostsSequence : Prop :=
  (∀ (bytes : List Byte) (a : Nat), (Memory.ofBytes bytes).read a = bytes[a]?) ∧
  (∀ bytes : List Byte, (Memory.ofBytes bytes).wf = true) ∧
  (∀ m n : Memory, m.wf = true → n.wf = true → m.toBytes = n.toBytes → m = n)

/-- TAKE_BITS in contract and within the buffer returns the big-endian sum of rule R34 over the next
`width` bits, most significant bit of each byte first, with the cursor `width` bits on (rule R70). -/
def Obligations.TakeBitsReadsBigEndian : Prop :=
  ∀ (c : CursorArg) (width : Nat) (s : State), fits s c = true → 1 ≤ width → width ≤ 16 →
    c.pos + width ≤ 8 * (bufOf s c.buf).len →
    ∃ v : U16,
      exec (.takeBits c width) s
        = .next (s.setReturned (.valueAt (.bits width v) ⟨bufOf s c.buf, c.pos + width⟩)) ∧
      v.toNat = ∑ i ∈ Finset.range width,
        ((((bufOf s c.buf).read ((c.pos + i) / 8)).getD 0).getLsbD (7 - (c.pos + i) % 8)).toNat
          <<< (width - 1 - i)

/-- Splitting (rule R70 corner case 5): two takes in a row read what one take of both widths reads. -/
def Obligations.TakeBitsSplits : Prop :=
  ∀ (c : CursorArg) (a b : Nat) (x y : U16) (c1 c2 : Cursor) (s : State), a + b ≤ 16 →
    exec (.takeBits c a) s = .next (s.setReturned (.valueAt (.bits a x) c1)) →
    exec (.takeBits ⟨c.buf, c.pos + a⟩ b) s = .next (s.setReturned (.valueAt (.bits b y) c2)) →
    exec (.takeBits c (a + b)) s = .next (s.setReturned (.valueAt (.bits (a + b) ((x <<< b) ||| y)) c2))

/-- TAKE_BYTES at a byte boundary and within the buffer, `n = 0` among them, returns the next `n` bytes
verbatim with the cursor `8·n` bits on (rule R72). -/
def Obligations.TakeBytesIsVerbatim : Prop :=
  ∀ (c : CursorArg) (pre bs post : List Byte) (s : State), fits s c = true →
    (bufOf s c.buf).toBytes = pre ++ bs ++ post → c.pos = 8 * pre.length →
    exec (.takeBytes c bs.length) s
      = .next (s.setReturned (.valueAt (.bytes bs) ⟨bufOf s c.buf, c.pos + 8 * bs.length⟩))

/-- A bit-level and a byte-level extraction agree (rule R35): byte `i` of a TAKE_BYTES is what
TAKE_BITS 8 reads at its place. -/
def Obligations.TakeBytesAgreesWithTakeBits : Prop :=
  ∀ (c : CursorArg) (n : Nat) (bs : List Byte) (c' : Cursor) (s : State),
    exec (.takeBytes c n) s = .next (s.setReturned (.valueAt (.bytes bs) c')) →
    ∀ i, i < n → ∃ b, bs[i]? = some b ∧
      exec (.takeBits ⟨c.buf, c.pos + 8 * i⟩ 8) s
        = .next (s.setReturned (.valueAt (.bits 8 (b.setWidth 16)) ⟨bufOf s c.buf, c.pos + 8 * i + 8⟩))

/-- Composition (rule R71): a sequence of takes succeeds as a whole exactly when the bits it asks for are
there and every TAKE_BYTES in it falls on a byte boundary, and then the cursor is past all of them. -/
def Obligations.SequencesOfTakesCompose : Prop :=
  ∀ (s : State) (takes : List Take) (c : CursorArg), fits s c = true →
    c.pos ≤ 8 * (bufOf s c.buf).len → (∀ width, Take.bits width ∈ takes → 1 ≤ width ∧ width ≤ 16) →
    ((∃ c', runTakes s takes c = some c') ↔
      c.pos + (takes.map Take.size).sum ≤ 8 * (bufOf s c.buf).len ∧ takesAligned c.pos takes = true) ∧
    ∀ c', runTakes s takes c = some c' → c' = ⟨c.buf, c.pos + (takes.map Take.size).sum⟩

/-- InsufficientInput is raised exactly when fewer bits or bytes remain than are asked for, and a failed
operation consumes nothing: the call returns the error and no register changes (rules R38, R141, R145; for
operations other than ETH_DECODE the latter is the spec's own decision D12). For a cursor beyond the end
of its buffer, which rule R11 excludes, the tests are the rules' read over the integers, so that even a
TAKE_BYTES of no bytes raises there: the model's reading (log entry 10). -/
def Obligations.ShortInputRaisesAndConsumesNothing : Prop :=
  ∀ (c : CursorArg) (s : State), fits s c = true →
    (∀ width, 1 ≤ width → width ≤ 16 →
      (exec (.takeBits c width) s = .next (s.setReturned (.raised .insufficientInput)) ↔
        8 * (bufOf s c.buf).len < c.pos + width)) ∧
    (∀ n, c.pos % 8 = 0 →
      (exec (.takeBytes c n) s = .next (s.setReturned (.raised .insufficientInput)) ↔
        (bufOf s c.buf).len < c.pos / 8 + n)) ∧
    (c.pos % 8 = 0 →
      (exec (.ethDecode c) s = .next (s.setReturned (.raised .insufficientInput)) ↔
        (bufOf s c.buf).len < c.pos / 8 + 14)) ∧
    (c.pos % 8 = 0 →
      (exec (.ipv4Decode c) s = .next (s.setReturned (.raised .insufficientInput)) ↔
        (bufOf s c.buf).len < c.pos / 8 + 20))

/-- Calls outside an operation's contract are refused whatever the length, and so are the operation indices
13 to 15, and no other instruction is ever refused so (rules R140 and R143, the spec's own decisions D3,
D5 and D6). Rule R140's table lists the three indices under ContractViolation; that the model refuses them
under the name noSuchOperation is its own (log entry 22). That a buffer given with the call and longer
than `MAX_LEN` is turned away before the contract is looked at, under another name, is the model's choice
(log entry 2). -/
def Obligations.ContractViolationExactlyOutsideContract : Prop :=
  ∀ (i : Instr) (s : State),
    (exec i s = .refused .contractViolation ↔
      (∃ c width, i = .takeBits c width ∧ fits s c = true ∧ (width < 1 ∨ 16 < width)) ∨
      (∃ c n, i = .takeBytes c n ∧ fits s c = true ∧ c.pos % 8 ≠ 0) ∨
      (∃ c, i = .ethDecode c ∧ fits s c = true ∧ c.pos % 8 ≠ 0) ∨
      (∃ c, i = .ipv4Decode c ∧ fits s c = true ∧ c.pos % 8 ≠ 0)) ∧
    ∀ op, exec i s = .refused (.noSuchOperation op) ↔
      (op = 13 ∧ i = .opReserved13) ∨ (op = 14 ∧ i = .opReserved14) ∨ (op = 15 ∧ i = .opReserved15)

/-- How each operation moves the cursor (rule R12): forward by what it reads, over the same buffer,
never beyond `8·LEN`. -/
def Obligations.CursorMovesByWhatIsRead : Prop :=
  ∀ (i : Instr) (s : State) (v : Value) (c' : Cursor),
    exec i s = .next (s.setReturned (.valueAt v c')) →
    ∃ c k, ((∃ width, i = .takeBits c width ∧ k = width) ∨ (∃ n, i = .takeBytes c n ∧ k = 8 * n) ∨
        (i = .ethDecode c ∧ k = 112) ∨ (i = .ipv4Decode c ∧ k = 160)) ∧
      c' = ⟨bufOf s c.buf, c.pos + k⟩ ∧ c'.pos ≤ 8 * c'.buf.len

/-! ### The header decoders -/

/-- ETH_DECODE of fourteen bytes (rule R100): the header of the layout, the cursor 112 bits on, the
remaining input what follows. -/
def Obligations.EthDecodeReadsTheLayout : Prop :=
  ∀ (c : CursorArg) (pre post : List Byte) (d0 d1 d2 d3 d4 d5 s0 s1 s2 s3 s4 s5 t1 t0 : Byte) (s : State),
    fits s c = true → c.pos = 8 * pre.length →
    (bufOf s c.buf).toBytes = pre ++ [d0, d1, d2, d3, d4, d5, s0, s1, s2, s3, s4, s5, t1, t0] ++ post →
    exec (.ethDecode c) s = .next (s.setReturned (.valueAt
      (.ethHeader (Layout.ethHeader s.roms.etype d0 d1 d2 d3 d4 d5 s0 s1 s2 s3 s4 s5 t1 t0))
      ⟨bufOf s c.buf, c.pos + 112⟩)) ∧
    Cursor.remaining ⟨bufOf s c.buf, c.pos + 112⟩ = some post

/-- IPV4_DECODE of twenty bytes (rule R110): the header of the layout, the cursor 160 bits on whatever
the version, the lengths and the checksum are, the remaining input what follows. -/
def Obligations.Ipv4DecodeReadsTheLayout : Prop :=
  ∀ (c : CursorArg) (pre post : List Byte)
    (a0 a1 l1 l0 i1 i0 f1 f0 ttl pc c1 c0 s0 s1 s2 s3 d0 d1 d2 d3 : Byte) (s : State),
    fits s c = true → c.pos = 8 * pre.length →
    (bufOf s c.buf).toBytes
      = pre ++ [a0, a1, l1, l0, i1, i0, f1, f0, ttl, pc, c1, c0, s0, s1, s2, s3, d0, d1, d2, d3] ++ post →
    exec (.ipv4Decode c) s = .next (s.setReturned (.valueAt
      (.ipv4Header (Layout.ipv4Header s.roms.proto
        a0 a1 l1 l0 i1 i0 f1 f0 ttl pc c1 c0 s0 s1 s2 s3 d0 d1 d2 d3))
      ⟨bufOf s c.buf, c.pos + 160⟩)) ∧
    Cursor.remaining ⟨bufOf s c.buf, c.pos + 160⟩ = some post

/-- The wire rows ETH_HDR, IPV4_HDR and IPV4_W0 return the records of their fields, the ethertype code,
the fragmentation bits and the protocol code resolved (rules R51 to R54). -/
def Obligations.HeaderRowsReturnRecords : Prop :=
  ∀ s : State,
    (∀ d r code, exec (.ethHdr d r code) s
      = .next (s.setReturned (.value (.ethHeader ⟨d, r, etypeLookup s.roms.etype code⟩)))) ∧
    (∀ w : Ipv4Wire, exec (.ipv4Hdr w) s = .next (s.setReturned (.value (.ipv4Header
      ⟨w.version, w.headerLength, w.dscp, w.ecn, w.totalLength, w.identification,
        (if w.dontFragment then .noFragmentation else .fragmented w.moreFragments w.offset),
        w.timeToLive, protoLookup s.roms.proto w.protocolCode, w.headerChecksum, w.source,
        w.destination⟩)))) ∧
    (∀ v h d e, exec (.ipv4W0 v h d e) s = .next (s.setReturned (.value (.word0 ⟨v, h, d, e⟩))))

/-! ### The lookup tables -/

/-- Rule R80: ETYPE_LOOKUP is total, a key gives its kind, any other code is carried in `Unknown`. -/
def Obligations.EtypeLookupIsTotal : Prop :=
  ∀ (code : U16) (s : State), ∃ k,
    exec (.etypeLookup code) s = .next (s.setReturned (.value (.payloadKind k))) ∧
    (code = s.roms.etype.ipv4 → k = .ipv4) ∧
    (code ≠ s.roms.etype.ipv4 → code = s.roms.etype.ipv6 → k = .ipv6) ∧
    (code ≠ s.roms.etype.ipv4 → code ≠ s.roms.etype.ipv6 → k = .unknown code)

/-- Rule R82: PROTO_LOOKUP is total, a key gives its kind, any other code is carried in `Unknown`. -/
def Obligations.ProtoLookupIsTotal : Prop :=
  ∀ (code : Byte) (s : State), ∃ k,
    exec (.protoLookup code) s = .next (s.setReturned (.value (.protocolKind k))) ∧
    (code = s.roms.proto.icmp → k = .icmp) ∧
    (code ≠ s.roms.proto.icmp → code = s.roms.proto.tcp → k = .tcp) ∧
    (code ≠ s.roms.proto.icmp → code ≠ s.roms.proto.tcp → code = s.roms.proto.udp → k = .udp) ∧
    (code ≠ s.roms.proto.icmp → code ≠ s.roms.proto.tcp → code ≠ s.roms.proto.udp → k = .unknown code)

/-- PROTO_CODE gives the key of a kind or the code carried, and undoes PROTO_LOOKUP on every code (rule
R84 and its corner case 1). -/
def Obligations.ProtoCodeUndoesProtoLookup : Prop :=
  (∀ s : State, exec (.protoCode .icmp) s = .next (s.setReturned (.value (.code8 s.roms.proto.icmp))) ∧
    exec (.protoCode .tcp) s = .next (s.setReturned (.value (.code8 s.roms.proto.tcp))) ∧
    exec (.protoCode .udp) s = .next (s.setReturned (.value (.code8 s.roms.proto.udp))) ∧
    ∀ code, exec (.protoCode (.unknown code)) s = .next (s.setReturned (.value (.code8 code)))) ∧
  (∀ (code : Byte) (s : State), ∃ k,
    exec (.protoLookup code) s = .next (s.setReturned (.value (.protocolKind k))) ∧
    exec (.protoCode k) s = .next (s.setReturned (.value (.code8 code))))

/-- The key rows of the two tables return their kinds, and the default rows carry a code that is no key
(rules R58 and R59). That a code row, executed, returns its kind is the model's reading (log entry 13). -/
def Obligations.TableRowsReturnKinds : Prop :=
  ∀ s : State,
    exec .etypeIpv4 s = .next (s.setReturned (.value (.payloadKind .ipv4))) ∧
    exec .etypeIpv6 s = .next (s.setReturned (.value (.payloadKind .ipv6))) ∧
    (∀ code, (Instr.etypeUnknown code).wellFormed s.roms = true →
      exec (.etypeUnknown code) s = .next (s.setReturned (.value (.payloadKind (.unknown code))))) ∧
    exec .protoIcmp s = .next (s.setReturned (.value (.protocolKind .icmp))) ∧
    exec .protoTcp s = .next (s.setReturned (.value (.protocolKind .tcp))) ∧
    exec .protoUdp s = .next (s.setReturned (.value (.protocolKind .udp))) ∧
    (∀ code, (Instr.protoUnknown code).wellFormed s.roms = true →
      exec (.protoUnknown code) s = .next (s.setReturned (.value (.protocolKind (.unknown code)))))

/-- A code presented as a table word and the lookup of that code return the same kind (rules R58, R59,
R80, R82). That the row of a code is an instruction that executes as the lookup does is the model's
reading (log entry 13). -/
def Obligations.CodeWordsAgreeWithLookups : Prop :=
  ∀ s : State, s.roms.wf = true →
    (∀ code : U16, ∃ i, decode s.roms .etypeCode [code.extractLsb' 8 8, code.extractLsb' 0 8] = .ok i ∧
      exec i s = exec (.etypeLookup code) s) ∧
    (∀ code : Byte, ∃ i, decode s.roms .protoCode [code] = .ok i ∧ exec i s = exec (.protoLookup code) s)

/-! ### The Fragmentation Decoder -/

/-- Rule R90: the don't-fragment bit alone selects the variant, the reserved bit is ignored. -/
def Obligations.FragDecodeFollowsDontFragment : Prop :=
  ∀ (w : U16) (s : State),
    exec (.fragDecode w) s = .next (s.setReturned (.value (.fragmentation
      (if w.getLsbD 14 = true then .noFragmentation
       else .fragmented (w.getLsbD 13) (w.extractLsb' 0 13)))))

/-- Rule R92: the output word of FRAG_ENCODE, bit by bit. -/
def Obligations.FragEncodeWritesCanonicalWord : Prop :=
  ∀ s : State,
    exec (.fragEncode .noFragmentation) s = .next (s.setReturned (.value (.word16 0x4000))) ∧
    ∀ (mf : Bool) (offset : BitVec 13), ∃ w : U16,
      exec (.fragEncode (.fragmented mf offset)) s = .next (s.setReturned (.value (.word16 w))) ∧
      w.getLsbD 15 = false ∧ w.getLsbD 14 = false ∧ w.getLsbD 13 = mf ∧ w.extractLsb' 0 13 = offset

/-- Rule R94: decoding what was encoded gives the value back. -/
def Obligations.FragmentationRoundTrip : Prop :=
  ∀ (f : Fragmentation) (s : State), ∃ w,
    exec (.fragEncode f) s = .next (s.setReturned (.value (.word16 w))) ∧
    exec (.fragDecode w) s = .next (s.setReturned (.value (.fragmentation f)))

/-- No round trip on the word side (rule R95): encoding what was decoded gives the word back exactly for
0x4000 and the words up to 0x3FFF, and otherwise the word the rule names. -/
def Obligations.FragmentationWordsThatSurvive : Prop :=
  ∀ (w : U16) (s : State), ∃ f r,
    exec (.fragDecode w) s = .next (s.setReturned (.value (.fragmentation f))) ∧
    exec (.fragEncode f) s = .next (s.setReturned (.value (.word16 r))) ∧
    (r = w ↔ w = 0x4000#16 ∨ w.toNat ≤ 0x3FFF) ∧
    (w.getLsbD 14 = true → r = 0x4000#16) ∧
    (w.getLsbD 14 = false → w.getLsbD 15 = true → r = w &&& 0x3FFF#16)

/-- The fragmentation word rows return what FRAG_DECODE and FRAG_ENCODE give for them (rules R54, R90,
R92). -/
def Obligations.FragmentationRowsReturn : Prop :=
  ∀ (s : State) (r m : Bool) (o : BitVec 13),
    exec (.fragNofrag r m o) s = .next (s.setReturned (.value (.fragmentation .noFragmentation))) ∧
    exec (.fragFragmented r m o) s = .next (s.setReturned (.value (.fragmentation (.fragmented m o)))) ∧
    exec .fragEncNofrag s = .next (s.setReturned (.value (.word16 0x4000))) ∧
    ∃ w : U16, exec (.fragEncFragmented m o) s = .next (s.setReturned (.value (.word16 w))) ∧
      w.toNat = m.toNat * 8192 + o.toNat

/-! ### The ChecksumValidator -/

/-- Rule R120: the nine words, as numbers; the stored checksum is not read. -/
def Obligations.CsumWordsReassemblesTheHeader : Prop :=
  ∀ (h : IPV4Header) (s : State), ∃ (w : CsumWords) (frag : U16) (code : Byte),
    exec (.csumWords h) s = .next (s.setReturned (.value (.words w))) ∧
    exec (.fragEncode h.fragmentation) s = .next (s.setReturned (.value (.word16 frag))) ∧
    exec (.protoCode h.protocol) s = .next (s.setReturned (.value (.code8 code))) ∧
    w.w0.toNat = h.version.toNat * 2 ^ 12 + h.headerLength.toNat * 2 ^ 8
      + h.differentiatedServicesCodepoint.toNat * 2 ^ 2 + h.explicitCongestionNotification.toNat ∧
    w.w1 = h.totalLength ∧ w.w2 = h.identification ∧ w.w3 = frag ∧
    w.w4.toNat = h.timeToLive.toNat * 2 ^ 8 + code.toNat ∧
    w.w5.toNat = h.source.b0.toNat * 2 ^ 8 + h.source.b1.toNat ∧
    w.w6.toNat = h.source.b2.toNat * 2 ^ 8 + h.source.b3.toNat ∧
    w.w7.toNat = h.destination.b0.toNat * 2 ^ 8 + h.destination.b1.toNat ∧
    w.w8.toNat = h.destination.b2.toNat * 2 ^ 8 + h.destination.b3.toNat ∧
    ∀ c, exec (.csumWords { h with headerChecksum := c }) s = exec (.csumWords h) s

/-- Rule R122: the fold is repeated until no carry remains. A sum without a carry is returned as it is,
otherwise one pass over the integers or, when that pass carries, a second one, after which no carry
remains; the fold keeps the residue modulo 0xFFFF and only 0 folds to 0. -/
def Obligations.CsumFoldRepeatsUntilNoCarry : Prop :=
  ∀ (x : U32) (s : State), ∃ r : U16,
    exec (.csumFold x) s = .next (s.setReturned (.value (.word16 r))) ∧
    (x.toNat ≤ 0xFFFF → r.toNat = x.toNat) ∧
    (0xFFFF < x.toNat → onePass x.toNat ≤ 0xFFFF → r.toNat = onePass x.toNat) ∧
    (0xFFFF < x.toNat → 0xFFFF < onePass x.toNat →
      onePass (onePass x.toNat) ≤ 0xFFFF ∧ r.toNat = onePass (onePass x.toNat)) ∧
    r.toNat % 0xFFFF = x.toNat % 0xFFFF ∧ (r.toNat = 0 ↔ x.toNat = 0)

/-- Rule R128: the single-pass formula of the original code agrees with the fold exactly when its one
pass leaves no carry. -/
def Obligations.SinglePassFoldDiffersOnCarry : Prop :=
  ∀ (x : U32) (s : State), ∃ r : U16,
    exec (.csumFold x) s = .next (s.setReturned (.value (.word16 r))) ∧
    (r.toNat = (x.toNat / 2 ^ 16 + x.toNat % 2 ^ 16) % 2 ^ 16 ↔
      x.toNat / 2 ^ 16 + x.toNat % 2 ^ 16 < 2 ^ 16)

/-- Rule R125: the sum of the nine words is at most 0x83FF8, so it does not overflow 32 bits. -/
def Obligations.ChecksumSumIsBounded : Prop :=
  ∀ (h : IPV4Header) (s : State), ∃ w : CsumWords,
    exec (.csumWords h) s = .next (s.setReturned (.value (.words w))) ∧
    w.w3.toNat ≤ 0x4000 ∧ (w.toList.map BitVec.toNat).sum ≤ 0x83FF8

/-- Rule R124: valid exactly when the complement of the folded sum of the nine words is the stored
checksum. -/
def Obligations.CsumValidateComparesComplement : Prop :=
  ∀ (h : IPV4Header) (s : State), ∃ (w : CsumWords) (folded : U16) (b : Bool),
    exec (.csumWords h) s = .next (s.setReturned (.value (.words w))) ∧
    exec (.csumFold (BitVec.ofNat 32 (w.toList.map BitVec.toNat).sum)) s
      = .next (s.setReturned (.value (.word16 folded))) ∧
    exec (.csumValidate h) s = .next (s.setReturned (.value (.flag b))) ∧
    (b = true ↔ 0xFFFF - folded.toNat = h.headerChecksum.toNat)

/-- Rule R129: when the words fold to 0xFFFF only a stored 0x0000 is valid; a stored 0xFFFF is not. -/
def Obligations.ValidityIsPatternEquality : Prop :=
  ∀ (h : IPV4Header) (s : State) (w : CsumWords),
    exec (.csumWords h) s = .next (s.setReturned (.value (.words w))) →
    (w.toList.map BitVec.toNat).sum ≠ 0 → (w.toList.map BitVec.toNat).sum % 0xFFFF = 0 →
    exec (.csumValidate h) s = .next (s.setReturned (.value (.flag (decide (h.headerChecksum = 0)))))

/-- Rule R127: single-bit sensitivity. When the checksum of a header is correct and any one bit of any one
of its nine summed words is flipped, the complement of the folded sum of the flipped words is not the
stored checksum, whether or not some header has these words (vector V51(a): all 144 flips); a header that
has them and the same stored checksum is invalid; and so is the header with any other stored checksum. -/
def Obligations.AnySingleBitFlipIsDetected : Prop :=
  ∀ (h : IPV4Header) (s : State) (w : CsumWords) (j k : Nat), j < 9 → k < 16 →
    exec (.csumWords h) s = .next (s.setReturned (.value (.words w))) →
    exec (.csumValidate h) s = .next (s.setReturned (.value (.flag true))) →
    (∃ folded : U16,
      exec (.csumFold (BitVec.ofNat 32 ((w.flip j k).toList.map BitVec.toNat).sum)) s
        = .next (s.setReturned (.value (.word16 folded))) ∧
      0xFFFF - folded.toNat ≠ h.headerChecksum.toNat) ∧
    (∀ h' : IPV4Header, exec (.csumWords h') s = .next (s.setReturned (.value (.words (w.flip j k)))) →
      h'.headerChecksum = h.headerChecksum →
      exec (.csumValidate h') s = .next (s.setReturned (.value (.flag false)))) ∧
    ∀ c : U16, c ≠ h.headerChecksum →
      exec (.csumValidate { h with headerChecksum := c }) s = .next (s.setReturned (.value (.flag false)))

/-- Rule R126: the validator judges the canonical form. When the wire's fragmentation word is not
canonical, a stored checksum that is right for the bytes on the wire is reported invalid. -/
def Obligations.WireChecksumOfNonCanonicalHeaderIsInvalid : Prop :=
  ∀ (wire : Ipv4Wire) (h : IPV4Header) (w : CsumWords) (folded : U16) (s : State),
    exec (.ipv4Hdr wire) s = .next (s.setReturned (.value (.ipv4Header h))) →
    exec (.csumWords h) s = .next (s.setReturned (.value (.words w))) →
    fragWire wire.reserved wire.dontFragment wire.moreFragments wire.offset ≠ w.w3 →
    exec (.csumFold (BitVec.ofNat 32 ((w.toList.map BitVec.toNat).sum - w.w3.toNat
        + (fragWire wire.reserved wire.dontFragment wire.moreFragments wire.offset).toNat))) s
      = .next (s.setReturned (.value (.word16 folded))) →
    0xFFFF - folded.toNat = wire.headerChecksum.toNat →
    exec (.csumValidate h) s = .next (s.setReturned (.value (.flag false)))

/-- The checksum word rows return the word of their two bytes, the first the more significant (rules R55,
R120). -/
def Obligations.ChecksumRowsReturnWords : Prop :=
  ∀ (s : State) (a b : Byte), ∃ w v : U16,
    exec (.csumW4 a b) s = .next (s.setReturned (.value (.word16 w))) ∧
    exec (.csumW5ToW8 a b) s = .next (s.setReturned (.value (.word16 v))) ∧
    w.toNat = a.toNat * 2 ^ 8 + b.toNat ∧ v.toNat = a.toNat * 2 ^ 8 + b.toNat

/-! ### PARSE -/

/-- PARSE of fewer than 14 bytes (rule R130): no header, the remainder all of the input. -/
def Obligations.ParseOfFewerThan14Bytes : Prop :=
  ∀ (bytes : List Byte) (s : State), s.admits bytes.length = true → bytes.length < 14 →
    ∃ t, exec (.parse bytes) s = .next t ∧
      t = s.setRecord (Memory.ofBytes bytes)
        { pos := 0, eth := none, ethPresent := false, ip4 := none, ip4Present := false, csumOk := none,
          remStart := 0, status := ⟨.insufficientInput, .ethernet⟩ } ∧
      t.remainder = bytes

/-- PARSE of 14 to 33 bytes (rule R130): the Ethernet header stays, no IPv4 header, the remainder what
follows the Ethernet header (the spec's own decision D10). -/
def Obligations.ParseOf14To33Bytes : Prop :=
  ∀ (d0 d1 d2 d3 d4 d5 s0 s1 s2 s3 s4 s5 t1 t0 : Byte) (rest bytes : List Byte) (s : State),
    bytes = [d0, d1, d2, d3, d4, d5, s0, s1, s2, s3, s4, s5, t1, t0] ++ rest →
    s.admits bytes.length = true → rest.length < 20 →
    ∃ t, exec (.parse bytes) s = .next t ∧
      t = s.setRecord (Memory.ofBytes bytes)
        { pos := 112,
          eth := some (Layout.ethHeader s.roms.etype d0 d1 d2 d3 d4 d5 s0 s1 s2 s3 s4 s5 t1 t0),
          ethPresent := true, ip4 := none, ip4Present := false, csumOk := none, remStart := 14,
          status := ⟨.insufficientInput, .ipv4⟩ } ∧
      t.remainder = rest

/-- PARSE of 34 bytes or more (rule R130): both headers, the validator's result beside the second, the
remainder from byte 34 on; a wrong checksum and an unknown code are no failure. -/
def Obligations.ParseOf34BytesOrMore : Prop :=
  ∀ (d0 d1 d2 d3 d4 d5 s0 s1 s2 s3 s4 s5 t1 t0 : Byte)
    (a0 a1 l1 l0 i1 i0 f1 f0 ttl pc c1 c0 p0 p1 p2 p3 q0 q1 q2 q3 : Byte)
    (rest bytes : List Byte) (s : State),
    bytes = [d0, d1, d2, d3, d4, d5, s0, s1, s2, s3, s4, s5, t1, t0]
      ++ [a0, a1, l1, l0, i1, i0, f1, f0, ttl, pc, c1, c0, p0, p1, p2, p3, q0, q1, q2, q3] ++ rest →
    s.admits bytes.length = true →
    ∃ t valid, exec (.parse bytes) s = .next t ∧
      exec (.csumValidate (Layout.ipv4Header s.roms.proto
          a0 a1 l1 l0 i1 i0 f1 f0 ttl pc c1 c0 p0 p1 p2 p3 q0 q1 q2 q3)) s
        = .next (s.setReturned (.value (.flag valid))) ∧
      t = s.setRecord (Memory.ofBytes bytes)
        { pos := 272,
          eth := some (Layout.ethHeader s.roms.etype d0 d1 d2 d3 d4 d5 s0 s1 s2 s3 s4 s5 t1 t0),
          ethPresent := true,
          ip4 := some (Layout.ipv4Header s.roms.proto
            a0 a1 l1 l0 i1 i0 f1 f0 ttl pc c1 c0 p0 p1 p2 p3 q0 q1 q2 q3),
          ip4Present := true, csumOk := some valid, remStart := 34, status := ⟨.ok, .noStage⟩ } ∧
      t.remainder = rest

/-- Every byte sequence of every length gives a result record (rule R148); only a sequence longer than
the open bound `MAX_LEN` is turned away (log entry 2). The bytes read back from `BUF` are the sequence. -/
def Obligations.ParseGivesARecordOnEveryInput : Prop :=
  ∀ (bytes : List Byte) (s : State),
    ((∀ bound, s.maxLen = some bound → bytes.length ≤ bound) →
      ∃ t, exec (.parse bytes) s = .next t ∧ t.returned = .record ∧ t.buf.toBytes = bytes ∧
        t.result.coherent bytes.length = true) ∧
    (∀ bound, s.maxLen = some bound → bound < bytes.length → exec (.parse bytes) s = .refused .inputTooLong)

/-- PARSE reads at most the first 34 bytes (rule R39): what follows changes no result register. -/
def Obligations.ParseReadsOnly34Bytes : Prop :=
  ∀ (head rest rest' : List Byte) (s t t' : State), head.length = 34 →
    exec (.parse (head ++ rest)) s = .next t → exec (.parse (head ++ rest')) s = .next t' →
    t.result = t'.result

/-- The outcome of a transaction depends on its input and the tables alone, not on what the registers
held before (rules R28, R147). -/
def Obligations.ParseForgetsEarlierTransactions : Prop :=
  ∀ (bytes : List Byte) (s s' t t' : State), s.roms = s'.roms →
    exec (.parse bytes) s = .next t → exec (.parse bytes) s' = .next t' →
    t.buf = t'.buf ∧ t.result = t'.result

/-- The IPv4 stage is not gated by the Ethernet stage (rule R131, the spec's own decision D11): two
inputs that differ in their fourteen Ethernet bytes alone give the same IPv4 header and validity. -/
def Obligations.Ipv4StageIsNotGated : Prop :=
  ∀ (e e' rest : List Byte) (s t t' : State), e.length = 14 → e'.length = 14 →
    exec (.parse (e ++ rest)) s = .next t → exec (.parse (e' ++ rest)) s = .next t' →
    t.result.ip4 = t'.result.ip4 ∧ t.result.csumOk = t'.result.csumOk ∧
      (14 + rest.length ≥ 34 → ∃ h, t.result.ip4 = some h)

/-! ### Whole-machine rules -/

/-- PARSE is the only operation that writes `BUF` or a result register; every other instruction that goes
on leaves all of them, the tables and the host's acts to come (rules R21, R29). That nothing else changes
`BUF` between transactions is the model's (log entry 23). -/
def Obligations.OnlyParseWritesRegisters : Prop :=
  ∀ (i : Instr) (s t : State), exec i s = .next t →
    (t.roms = s.roms ∧ t.maxLen = s.maxLen ∧ t.pending = s.pending) ∧
    ((∃ bytes, i = .parse bytes) ∨ s.sameRegisters t)

/-- No instruction faults, and it is refused only outside its contract (rule R143), as one of the three
indices that name no operation (rule R57; the name is log entry 22), or above `MAX_LEN`. The spec says the
last of a request (`93_implementation_defined.md` U16); that a buffer given with another call is turned
away so too is the model's choice (log entry 2). -/
def Obligations.InstructionsStopOnlyAsTheSpecNames : Prop :=
  ∀ (i : Instr) (s : State), (∀ f, exec i s ≠ .fault f) ∧
    ∀ r, exec i s = .refused r → r = .contractViolation ∨
      (r = .inputTooLong ∧ ∃ bound, s.maxLen = some bound) ∨
      (r = .noSuchOperation 13 ∧ i = .opReserved13) ∨ (r = .noSuchOperation 14 ∧ i = .opReserved14) ∨
      (r = .noSuchOperation 15 ∧ i = .opReserved15)

/-- The remaining-input view (rule R73): a byte-aligned cursor has the bytes from `POS div 8` to the end as
its view, an unaligned cursor has none, and a decoder never returns a cursor without one. -/
def Obligations.RemainingViewExistsExactlyWhenAligned : Prop :=
  (∀ c : Cursor, c.pos % 8 = 0 → c.remaining = some (c.buf.toBytes.drop (c.pos / 8))) ∧
  (∀ c : Cursor, c.pos % 8 ≠ 0 → c.remaining = none) ∧
  ∀ (c : CursorArg) (s : State) (v : Value) (c' : Cursor),
    exec (.ethDecode c) s = .next (s.setReturned (.valueAt v c')) ∨
      exec (.ipv4Decode c) s = .next (s.setReturned (.valueAt v c')) →
    ∃ rest, c'.remaining = some rest
end

