-- ==== Sys2Proof/Laws/State.lean ====
section
/-! SUPPORT. One lemma per field per update of the state, each true by unfolding the update. -/

namespace Sys2Proof.Machine

@[simp] theorem setReturned_buf (s : State) (r : Returned) : (s.setReturned r).buf = s.buf := rfl
@[simp] theorem setReturned_result (s : State) (r : Returned) : (s.setReturned r).result = s.result := rfl
@[simp] theorem setReturned_roms (s : State) (r : Returned) : (s.setReturned r).roms = s.roms := rfl
@[simp] theorem setReturned_maxLen (s : State) (r : Returned) : (s.setReturned r).maxLen = s.maxLen := rfl
@[simp] theorem setReturned_returned (s : State) (r : Returned) : (s.setReturned r).returned = r := rfl
@[simp] theorem setReturned_pending (s : State) (r : Returned) : (s.setReturned r).pending = s.pending := rfl

@[simp] theorem setRecord_buf (s : State) (m : Memory) (r : Record) : (s.setRecord m r).buf = m := rfl
@[simp] theorem setRecord_result (s : State) (m : Memory) (r : Record) : (s.setRecord m r).result = r := rfl
@[simp] theorem setRecord_roms (s : State) (m : Memory) (r : Record) : (s.setRecord m r).roms = s.roms := rfl
@[simp] theorem setRecord_maxLen (s : State) (m : Memory) (r : Record) :
    (s.setRecord m r).maxLen = s.maxLen := rfl
@[simp] theorem setRecord_returned (s : State) (m : Memory) (r : Record) :
    (s.setRecord m r).returned = .record := rfl
@[simp] theorem setRecord_pending (s : State) (m : Memory) (r : Record) :
    (s.setRecord m r).pending = s.pending := rfl

@[simp] theorem served_buf (s : State) (q : List Request) : (s.served q).buf = s.buf := rfl
@[simp] theorem served_result (s : State) (q : List Request) : (s.served q).result = s.result := rfl
@[simp] theorem served_roms (s : State) (q : List Request) : (s.served q).roms = s.roms := rfl
@[simp] theorem served_maxLen (s : State) (q : List Request) : (s.served q).maxLen = s.maxLen := rfl
@[simp] theorem served_returned (s : State) (q : List Request) : (s.served q).returned = s.returned := rfl
@[simp] theorem served_pending (s : State) (q : List Request) : (s.served q).pending = q := rfl

@[simp] theorem withCall_buf (s : State) (f : Form) (b : List Byte) : (s.withCall f b).buf = s.buf := rfl
@[simp] theorem withCall_result (s : State) (f : Form) (b : List Byte) :
    (s.withCall f b).result = s.result := rfl
@[simp] theorem withCall_roms (s : State) (f : Form) (b : List Byte) : (s.withCall f b).roms = s.roms := rfl
@[simp] theorem withCall_maxLen (s : State) (f : Form) (b : List Byte) :
    (s.withCall f b).maxLen = s.maxLen := rfl
@[simp] theorem withCall_pending (s : State) (f : Form) (b : List Byte) :
    (s.withCall f b).pending = .call f b :: s.pending := rfl

/-- A request served and nothing else leaves every register. -/
theorem sameRegisters_served (s : State) (q : List Request) : s.sameRegisters (s.served q) :=
  ⟨rfl, rfl, rfl, rfl⟩

/-- A returned value leaves every register. -/
theorem sameRegisters_setReturned (s : State) (r : Returned) : s.sameRegisters (s.setReturned r) :=
  ⟨rfl, rfl, rfl, rfl⟩

/-- What a call that returns or raises can do, once: it answers the state with a returned value and no
register written, or it is refused as a contract violation. -/
theorem finish_cases {α : Type} (s : State) (r : Except ErrorKind (α × Cursor)) (v : α → Value) :
    (∃ a c, r = .ok (a, c) ∧ s.finish r v = .next (s.setReturned (.valueAt (v a) c))) ∨
    (r = .error .insufficientInput ∧ s.finish r v = .next (s.setReturned (.raised .insufficientInput))) ∨
    (r = .error .contractViolation ∧ s.finish r v = .refused .contractViolation) := by
  rcases r with e | ⟨a, c⟩
  · cases e
    · exact .inr (.inl ⟨rfl, rfl⟩)
    · exact .inr (.inr ⟨rfl, rfl⟩)
  · exact .inl ⟨a, c, rfl, rfl⟩

@[simp] theorem finish_ok {α : Type} (s : State) (a : α) (c : Cursor) (v : α → Value) :
    s.finish (.ok (a, c)) v = .next (s.setReturned (.valueAt (v a) c)) := rfl

@[simp] theorem finish_insufficient {α : Type} (s : State) (v : α → Value) :
    s.finish (.error .insufficientInput) v = .next (s.setReturned (.raised .insufficientInput)) := rfl

@[simp] theorem finish_contract {α : Type} (s : State) (v : α → Value) :
    s.finish (.error .contractViolation) v = .refused .contractViolation := rfl

end Sys2Proof.Machine
end

