-- ==== Sys2Proof/Laws/Memory.lean ====
section
/-! SUPPORT. Laws of the input buffer: reading a buffer made of a byte sequence gives the bytes, the
canonical form holds of every such buffer and makes equal buffers equal data. -/

namespace Sys2Proof.Machine

theorem lookup_cellsFrom_below (bytes : List Byte) :
    ∀ lo a, a < lo → Memory.lookup (Memory.cellsFrom lo bytes) a = Memory.unlisted := by
  induction bytes with
  | nil => intro lo a _; rfl
  | cons b rest ih =>
    intro lo a h
    simp only [Memory.cellsFrom]
    split
    · exact ih _ _ (by omega)
    · simp only [Memory.lookup]
      rw [if_neg (by omega)]
      exact ih _ _ (by omega)

theorem lookup_cellsFrom (bytes : List Byte) :
    ∀ lo i, Memory.lookup (Memory.cellsFrom lo bytes) (lo + i) = (bytes[i]?).getD Memory.unlisted := by
  induction bytes with
  | nil => intro lo i; simp [Memory.cellsFrom, Memory.lookup]
  | cons b rest ih =>
    intro lo i
    simp only [Memory.cellsFrom]
    cases i with
    | zero =>
      split
      · next h => simp [lookup_cellsFrom_below rest (lo + 1) lo (by omega), h]
      · simp [Memory.lookup]
    | succ i =>
      have hs : lo + (i + 1) = (lo + 1) + i := by omega
      split
      · rw [hs, ih]; simp
      · simp only [Memory.lookup]
        rw [if_neg (by omega), hs, ih]; simp

@[simp] theorem ofBytes_len (bytes : List Byte) : (Memory.ofBytes bytes).len = bytes.length := rfl

/-- Byte `a` of the buffer made of a byte sequence is the sequence's byte `a`. -/
theorem byteAt_ofBytes (bytes : List Byte) (a : Nat) :
    (Memory.ofBytes bytes).byteAt a = (bytes[a]?).getD 0 := by
  have := lookup_cellsFrom bytes 0 a
  simpa [Memory.byteAt, Memory.ofBytes, Memory.unlisted] using this

/-- Reading a buffer made of a byte sequence is reading the sequence, absent beyond its end. -/
theorem read_ofBytes (bytes : List Byte) (a : Nat) : (Memory.ofBytes bytes).read a = bytes[a]? := by
  simp only [Memory.read, ofBytes_len, byteAt_ofBytes]
  split
  · next h => simp [List.getElem?_eq_getElem h]
  · next h => simp [List.getElem?_eq_none (Nat.le_of_not_lt h)]

@[simp] theorem readBytes_length (m : Memory) (n : Nat) : ∀ a, (m.readBytes a n).length = n := by
  induction n with
  | zero => intro a; rfl
  | succ n ih => intro a; simp [Memory.readBytes, ih]

theorem readBytes_getElem? (m : Memory) (n : Nat) :
    ∀ a i, i < n → (m.readBytes a n)[i]? = some (m.byteAt (a + i)) := by
  induction n with
  | zero => intro a i h; omega
  | succ n ih =>
    intro a i h
    cases i with
    | zero => simp [Memory.readBytes]
    | succ i =>
      simp only [Memory.readBytes, List.getElem?_cons_succ]
      rw [ih (a + 1) i (by omega)]
      congr 2; omega

/-- `MemRead` of a buffer made of a byte sequence is a slice of the sequence. -/
theorem readBytes_ofBytes (bytes : List Byte) (a n : Nat) (h : a + n ≤ bytes.length) :
    (Memory.ofBytes bytes).readBytes a n = (bytes.drop a).take n := by
  apply List.ext_getElem?
  intro i
  by_cases hi : i < n
  · rw [readBytes_getElem? _ _ _ _ hi, byteAt_ofBytes, List.getElem?_take_of_lt hi, List.getElem?_drop,
      List.getElem?_eq_getElem (by omega)]
    rfl
  · rw [List.getElem?_eq_none (by simpa using Nat.le_of_not_lt hi),
      List.getElem?_eq_none (by simp; omega)]

/-- The bytes of a buffer made of a byte sequence are the sequence. -/
theorem toBytes_ofBytes (bytes : List Byte) : (Memory.ofBytes bytes).toBytes = bytes := by
  simp [Memory.toBytes, readBytes_ofBytes]

theorem wfFrom_mono (len : Nat) (cells : List Host.Cell) :
    ∀ lo lo', lo' ≤ lo → Memory.wfFrom len lo cells = true → Memory.wfFrom len lo' cells = true := by
  intro lo lo' h
  cases cells with
  | nil => simp [Memory.wfFrom]
  | cons c rest =>
    simp only [Memory.wfFrom, Bool.and_eq_true, decide_eq_true_eq]
    rintro ⟨⟨⟨h1, h2⟩, h3⟩, h4⟩
    exact ⟨⟨⟨by omega, h2⟩, h3⟩, h4⟩

theorem wfFrom_cellsFrom (len : Nat) (bytes : List Byte) :
    ∀ lo, lo + bytes.length ≤ len → Memory.wfFrom len lo (Memory.cellsFrom lo bytes) = true := by
  induction bytes with
  | nil => intro lo _; rfl
  | cons b rest ih =>
    intro lo h
    simp only [List.length_cons] at h
    simp only [Memory.cellsFrom]
    split
    · exact wfFrom_mono _ _ _ _ (Nat.le_succ lo) (ih (lo + 1) (by omega))
    · next hb =>
      simp only [Memory.wfFrom, Bool.and_eq_true, decide_eq_true_eq]
      exact ⟨⟨⟨Nat.le_refl _, by omega⟩, hb⟩, ih (lo + 1) (by omega)⟩

/-- Every buffer the host supplies is in the canonical form. -/
theorem wf_ofBytes (bytes : List Byte) : (Memory.ofBytes bytes).wf = true :=
  wfFrom_cellsFrom _ _ 0 (by simp)

theorem cellsFrom_readBytes (len : Nat) :
    ∀ n lo cells, lo + n = len → Memory.wfFrom len lo cells = true →
      ∀ m : Memory, (∀ a, lo ≤ a → m.byteAt a = Memory.lookup cells a) →
        Memory.cellsFrom lo (m.readBytes lo n) = cells := by
  intro n
  induction n with
  | zero =>
    intro lo cells hlen hwf m _
    cases cells with
    | nil => rfl
    | cons c rest =>
      simp only [Memory.wfFrom, Bool.and_eq_true, decide_eq_true_eq] at hwf
      omega
  | succ n ih =>
    intro lo cells hlen hwf m hm
    simp only [Memory.readBytes, Memory.cellsFrom]
    cases cells with
    | nil =>
      have h0 : m.byteAt lo = Memory.unlisted := by rw [hm lo (Nat.le_refl _)]; rfl
      rw [if_pos h0]
      exact ih (lo + 1) [] (by omega) rfl m (fun a h => hm a (by omega))
    | cons c rest =>
      obtain ⟨k, b⟩ := c
      simp only [Memory.wfFrom, Bool.and_eq_true, decide_eq_true_eq] at hwf
      obtain ⟨⟨⟨h1, h2⟩, h3⟩, h4⟩ := hwf
      by_cases hk : k = lo
      · subst hk
        have hb : m.byteAt k = b := by rw [hm k (Nat.le_refl _)]; simp [Memory.lookup]
        rw [hb, if_neg h3]
        congr 1
        refine ih (k + 1) rest (by omega) h4 m (fun a h => ?_)
        rw [hm a (by omega)]
        simp only [Memory.lookup]
        rw [if_neg (by omega)]
      · have h0 : m.byteAt lo = Memory.unlisted := by
          rw [hm lo (Nat.le_refl _)]
          simp only [Memory.lookup]
          rw [if_neg hk]
          clear ih hm
          have : ∀ (cs : List Host.Cell) l, lo < l → Memory.wfFrom len l cs = true →
              Memory.lookup cs lo = Memory.unlisted := by
            intro cs
            induction cs with
            | nil => intro l _ _; rfl
            | cons d ds ihd =>
              intro l hl hw
              obtain ⟨k', b'⟩ := d
              simp only [Memory.wfFrom, Bool.and_eq_true, decide_eq_true_eq] at hw
              simp only [Memory.lookup]
              rw [if_neg (by omega)]
              exact ihd (k' + 1) (by omega) hw.2
          exact this rest (k + 1) (by omega) h4
        rw [if_pos h0]
        refine ih (lo + 1) _ (by omega) ?_ m (fun a h => hm a (by omega))
        simp only [Memory.wfFrom, Bool.and_eq_true, decide_eq_true_eq]
        exact ⟨⟨⟨by omega, h2⟩, h3⟩, h4⟩

/-- In the canonical form a buffer is determined by its bytes. -/
theorem ofBytes_toBytes (m : Memory) (h : m.wf = true) : Memory.ofBytes m.toBytes = m := by
  have hc := cellsFrom_readBytes m.len m.len 0 m.cells (by omega) h m (fun a _ => rfl)
  have hl : m.toBytes.length = m.len := by simp [Memory.toBytes]
  cases m with
  | mk len cells =>
    simp only [Memory.ofBytes]
    rw [hl]
    simp only [Memory.toBytes]
    rw [hc]

/-- What a bit read gives is below `2^w` (rules R17, R70). -/
theorem readBits_lt (m : Memory) (p w : Nat) : m.readBits p w < 2 ^ w := by
  induction w with
  | zero => simp [Memory.readBits]
  | succ w ih =>
    simp only [Memory.readBits]
    have : (m.bit (p + w)).toNat ≤ 1 := Bool.toNat_le _
    rw [pow_succ]; omega

/-- A read of `a + b` bits is the read of `a` bits, shifted, and of the next `b` (rule R70). -/
theorem readBits_add (m : Memory) (p a b : Nat) :
    m.readBits p (a + b) = m.readBits p a * 2 ^ b + m.readBits (p + a) b := by
  induction b with
  | zero => simp [Memory.readBits]
  | succ b ih =>
    rw [← Nat.add_assoc]
    simp only [Memory.readBits, ih, pow_succ]
    have : p + (a + b) = p + a + b := by omega
    rw [this]; ring

/-- Eight bits at a byte boundary are that byte, most significant bit first (rule R35). -/
theorem readBits_byte (m : Memory) (a : Nat) : m.readBits (8 * a) 8 = (m.byteAt a).toNat := by
  have hb : ∀ k, k < 8 → m.bit (8 * a + k) = (m.byteAt a).getLsbD (7 - k) := by
    intro k hk
    simp only [Memory.bit]
    have h1 : (8 * a + k) / 8 = a := by omega
    have h2 : (8 * a + k) % 8 = k := by omega
    rw [h1, h2]
  simp only [Memory.readBits, hb 0 (by omega), hb 1 (by omega), hb 2 (by omega), hb 3 (by omega),
    hb 4 (by omega), hb 5 (by omega), hb 6 (by omega), hb 7 (by omega)]
  generalize m.byteAt a = x
  revert x
  decide

/-- Sixteen bits at a byte boundary are two bytes, the first the more significant (rule R35). -/
theorem readBits_be16 (m : Memory) (a : Nat) :
    BitVec.ofNat 16 (m.readBits (8 * a) 16) = be16 (m.byteAt a) (m.byteAt (a + 1)) := by
  have h : m.readBits (8 * a) 16 = (m.byteAt a).toNat * 256 + (m.byteAt (a + 1)).toNat := by
    rw [show (16 : Nat) = 8 + 8 from rfl, readBits_add, readBits_byte,
      show 8 * a + 8 = 8 * (a + 1) by omega, readBits_byte]; norm_num
  apply BitVec.eq_of_toNat_eq
  rw [h, be16, BitVec.toNat_append, BitVec.toNat_ofNat, ← Nat.shiftLeft_add_eq_or_of_lt (by omega),
    Nat.shiftLeft_eq]
  omega

end Sys2Proof.Machine
end

