-- ==== Sys2Proof/Laws/BitCursor.lean ====
section
/-! SUPPORT. One lemma per take and per decoder that says everything it can do: where it succeeds, with
which value and cursor, and where it raises. -/

namespace Sys2Proof.Machine

/-- TAKE_BITS in contract and within the buffer (rule R70). -/
theorem takeBits_ok (c : Cursor) (w : Nat) (h1 : 1 ≤ w) (h2 : w ≤ 16) (h : c.pos + w ≤ 8 * c.buf.len) :
    takeBits c w = .ok (BitVec.ofNat 16 (c.buf.readBits c.pos w), ⟨c.buf, c.pos + w⟩) := by
  simp only [takeBits, Config.widthMin, Config.widthMax]
  rw [if_neg (by omega), if_neg (by omega)]

/-- TAKE_BITS in contract and beyond the buffer (rule R70). -/
theorem takeBits_short (c : Cursor) (w : Nat) (h1 : 1 ≤ w) (h2 : w ≤ 16) (h : 8 * c.buf.len < c.pos + w) :
    takeBits c w = .error .insufficientInput := by
  simp only [takeBits, Config.widthMin, Config.widthMax]
  rw [if_neg (by omega), if_pos (by omega)]

/-- TAKE_BITS out of contract, whatever the length (rule R70). -/
theorem takeBits_contract (c : Cursor) (w : Nat) (h : w < 1 ∨ 16 < w) :
    takeBits c w = .error .contractViolation := by
  simp only [takeBits]
  rw [if_pos h]

/-- TAKE_BYTES at a byte boundary and within the buffer (rule R72). -/
theorem takeBytes_ok (c : Cursor) (n : Nat) (ha : c.pos % 8 = 0) (h : c.pos / 8 + n ≤ c.buf.len) :
    takeBytes c n = .ok (c.buf.readBytes (c.pos / 8) n, ⟨c.buf, c.pos + 8 * n⟩) := by
  simp only [takeBytes]
  rw [if_neg (by omega), if_neg (by omega)]

/-- TAKE_BYTES at a byte boundary and beyond the buffer (rule R72). -/
theorem takeBytes_short (c : Cursor) (n : Nat) (ha : c.pos % 8 = 0) (h : c.buf.len < c.pos / 8 + n) :
    takeBytes c n = .error .insufficientInput := by
  simp only [takeBytes]
  rw [if_neg (by omega), if_pos (by omega)]

/-- TAKE_BYTES at an unaligned cursor, whatever the length (rule R72). -/
theorem takeBytes_contract (c : Cursor) (n : Nat) (ha : c.pos % 8 ≠ 0) :
    takeBytes c n = .error .contractViolation := by
  simp only [takeBytes]
  rw [if_pos ha]

/-- The six bytes of a buffer from address `a` on. -/
def macAt (m : Memory) (a : Nat) : MacAddr :=
  ⟨m.byteAt a, m.byteAt (a + 1), m.byteAt (a + 2), m.byteAt (a + 3), m.byteAt (a + 4), m.byteAt (a + 5)⟩

/-- The four bytes of a buffer from address `a` on. -/
def ip4At (m : Memory) (a : Nat) : Ip4Addr :=
  ⟨m.byteAt a, m.byteAt (a + 1), m.byteAt (a + 2), m.byteAt (a + 3)⟩

/-- The big-endian 16-bit value at address `a`. -/
def wordAt (m : Memory) (a : Nat) : U16 := be16 (m.byteAt a) (m.byteAt (a + 1))

/-- The Ethernet header at address `a` (rule R51). -/
def ethHeaderAt (rom : EtypeRom) (m : Memory) (a : Nat) : EthernetHeader :=
  ⟨macAt m a, macAt m (a + 6), etypeLookup rom (wordAt m (a + 12))⟩

/-- The IPv4 base header at address `a` (rule R52). -/
def ipv4HeaderAt (rom : ProtoRom) (m : Memory) (a : Nat) : IPV4Header :=
  ⟨word0Version (wordAt m a), word0HeaderLength (wordAt m a), word0Dscp (wordAt m a),
    word0Ecn (wordAt m a), wordAt m (a + 2), wordAt m (a + 4), fragDecode (wordAt m (a + 6)),
    m.byteAt (a + 8), protoLookup rom (m.byteAt (a + 9)), wordAt m (a + 10),
    ip4At m (a + 12), ip4At m (a + 16)⟩

theorem takeMac_ok (m : Memory) (a : Nat) (h : a + 6 ≤ m.len) :
    takeMac ⟨m, 8 * a⟩ = .ok (macAt m a, ⟨m, 8 * (a + 6)⟩) := by
  have e : 8 * a / 8 = a := by omega
  have t := takeBytes_ok ⟨m, 8 * a⟩ 6 (by show 8 * a % 8 = 0; omega) (by show 8 * a / 8 + 6 ≤ m.len; omega)
  simp only [takeMac, Config.macBytes, t, e, Memory.readBytes, macAt]
  congr 2

theorem takeMac_short (m : Memory) (a : Nat) (h : m.len < a + 6) :
    takeMac ⟨m, 8 * a⟩ = .error .insufficientInput := by
  have t := takeBytes_short ⟨m, 8 * a⟩ 6 (by show 8 * a % 8 = 0; omega) (by show m.len < 8 * a / 8 + 6; omega)
  simp only [takeMac, Config.macBytes, t]

theorem takeMac_contract (c : Cursor) (h : c.pos % 8 ≠ 0) : takeMac c = .error .contractViolation := by
  simp only [takeMac, takeBytes_contract c _ h]

theorem takeIp4Addr_ok (m : Memory) (a : Nat) (h : a + 4 ≤ m.len) :
    takeIp4Addr ⟨m, 8 * a⟩ = .ok (ip4At m a, ⟨m, 8 * (a + 4)⟩) := by
  have e : 8 * a / 8 = a := by omega
  have t := takeBytes_ok ⟨m, 8 * a⟩ 4 (by show 8 * a % 8 = 0; omega) (by show 8 * a / 8 + 4 ≤ m.len; omega)
  simp only [takeIp4Addr, Config.ip4AddrBytes, t, e, Memory.readBytes, ip4At]
  congr 2

theorem takeIp4Addr_short (m : Memory) (a : Nat) (h : m.len < a + 4) :
    takeIp4Addr ⟨m, 8 * a⟩ = .error .insufficientInput := by
  have t := takeBytes_short ⟨m, 8 * a⟩ 4 (by show 8 * a % 8 = 0; omega) (by show m.len < 8 * a / 8 + 4; omega)
  simp only [takeIp4Addr, Config.ip4AddrBytes, t]

/-- A 16-bit take at a byte boundary. -/
theorem takeWord_ok (m : Memory) (a : Nat) (h : a + 2 ≤ m.len) :
    takeBits ⟨m, 8 * a⟩ 16 = .ok (wordAt m a, ⟨m, 8 * (a + 2)⟩) := by
  rw [takeBits_ok _ _ (by omega) (by omega) (by show 8 * a + 16 ≤ 8 * m.len; omega)]
  simp only [readBits_be16, wordAt]
  congr 2

theorem takeWord_short (m : Memory) (a : Nat) (h : m.len < a + 2) :
    takeBits ⟨m, 8 * a⟩ 16 = .error .insufficientInput :=
  takeBits_short _ _ (by omega) (by omega) (by show 8 * m.len < 8 * a + 16; omega)

/-- An 8-bit take at a byte boundary. -/
theorem takeByte_ok (m : Memory) (a : Nat) (h : a + 1 ≤ m.len) :
    takeByte ⟨m, 8 * a⟩ = .ok (m.byteAt a, ⟨m, 8 * (a + 1)⟩) := by
  simp only [takeByte]
  rw [takeBits_ok _ _ (by omega) (by omega) (by show 8 * a + 8 ≤ 8 * m.len; omega)]
  simp only [readBits_byte, bind, Except.bind, pure, Except.pure]
  congr 2
  apply BitVec.eq_of_toNat_eq
  simp

theorem takeByte_short (m : Memory) (a : Nat) (h : m.len < a + 1) :
    takeByte ⟨m, 8 * a⟩ = .error .insufficientInput := by
  simp only [takeByte]
  rw [takeBits_short _ _ (by omega) (by omega) (by show 8 * m.len < 8 * a + 8; omega)]
  rfl

/-- ETH_DECODE with 14 bytes at hand (rule R100). -/
theorem ethDecode_ok (rom : EtypeRom) (m : Memory) (a : Nat) (h : a + 14 ≤ m.len) :
    ethDecode rom ⟨m, 8 * a⟩ = .ok (ethHeaderAt rom m a, ⟨m, 8 * (a + 14)⟩) := by
  simp only [ethDecode, takeMac_ok m a (by omega), bind, Except.bind, pure, Except.pure,
    takeMac_ok m (a + 6) (by omega), takeWord_ok m (a + 6 + 6) (by omega)]
  rfl

/-- ETH_DECODE with fewer than 14 bytes (rule R100). -/
theorem ethDecode_short (rom : EtypeRom) (m : Memory) (a : Nat) (h : m.len < a + 14) :
    ethDecode rom ⟨m, 8 * a⟩ = .error .insufficientInput := by
  by_cases h1 : m.len < a + 6
  · simp only [ethDecode, takeMac_short m a h1, bind, Except.bind]
  · by_cases h2 : m.len < a + 6 + 6
    · simp only [ethDecode, takeMac_ok m a (by omega), takeMac_short m (a + 6) h2, bind, Except.bind]
    · simp only [ethDecode, takeMac_ok m a (by omega), takeMac_ok m (a + 6) (by omega),
        takeWord_short m (a + 6 + 6) (by omega), bind, Except.bind]

/-- ETH_DECODE at an unaligned cursor (rule R100). -/
theorem ethDecode_contract (rom : EtypeRom) (c : Cursor) (h : c.pos % 8 ≠ 0) :
    ethDecode rom c = .error .contractViolation := by
  simp only [ethDecode, takeMac_contract c h, bind, Except.bind]

/-- IPV4_DECODE with 20 bytes at hand (rule R110). -/
theorem ipv4Decode_ok (rom : ProtoRom) (m : Memory) (a : Nat) (h : a + 20 ≤ m.len) :
    ipv4Decode rom ⟨m, 8 * a⟩ = .ok (ipv4HeaderAt rom m a, ⟨m, 8 * (a + 20)⟩) := by
  simp only [ipv4Decode]
  rw [if_neg (by omega)]
  simp only [takeWord_ok m a (by omega), takeWord_ok m (a + 2) (by omega),
    takeWord_ok m (a + 2 + 2) (by omega), takeWord_ok m (a + 2 + 2 + 2) (by omega),
    takeByte_ok m (a + 2 + 2 + 2 + 2) (by omega), takeByte_ok m (a + 2 + 2 + 2 + 2 + 1) (by omega),
    takeWord_ok m (a + 2 + 2 + 2 + 2 + 1 + 1) (by omega),
    takeIp4Addr_ok m (a + 2 + 2 + 2 + 2 + 1 + 1 + 2) (by omega),
    takeIp4Addr_ok m (a + 2 + 2 + 2 + 2 + 1 + 1 + 2 + 4) (by omega),
    bind, Except.bind, pure, Except.pure]
  rfl

/-- IPV4_DECODE with fewer than 20 bytes (rule R110). -/
theorem ipv4Decode_short (rom : ProtoRom) (m : Memory) (a : Nat) (h : m.len < a + 20) :
    ipv4Decode rom ⟨m, 8 * a⟩ = .error .insufficientInput := by
  simp only [ipv4Decode]
  rw [if_neg (by omega)]
  by_cases h1 : m.len < a + 2
  · simp only [takeWord_short m a h1, bind, Except.bind]
  by_cases h2 : m.len < a + 2 + 2
  · simp only [takeWord_ok m a (by omega), takeWord_short m (a + 2) h2, bind, Except.bind]
  by_cases h3 : m.len < a + 2 + 2 + 2
  · simp only [takeWord_ok m a (by omega), takeWord_ok m (a + 2) (by omega),
      takeWord_short m (a + 2 + 2) h3, bind, Except.bind]
  by_cases h4 : m.len < a + 2 + 2 + 2 + 2
  · simp only [takeWord_ok m a (by omega), takeWord_ok m (a + 2) (by omega),
      takeWord_ok m (a + 2 + 2) (by omega), takeWord_short m (a + 2 + 2 + 2) h4, bind, Except.bind]
  by_cases h5 : m.len < a + 2 + 2 + 2 + 2 + 1
  · simp only [takeWord_ok m a (by omega), takeWord_ok m (a + 2) (by omega),
      takeWord_ok m (a + 2 + 2) (by omega), takeWord_ok m (a + 2 + 2 + 2) (by omega),
      takeByte_short m (a + 2 + 2 + 2 + 2) h5, bind, Except.bind]
  by_cases h6 : m.len < a + 2 + 2 + 2 + 2 + 1 + 1
  · simp only [takeWord_ok m a (by omega), takeWord_ok m (a + 2) (by omega),
      takeWord_ok m (a + 2 + 2) (by omega), takeWord_ok m (a + 2 + 2 + 2) (by omega),
      takeByte_ok m (a + 2 + 2 + 2 + 2) (by omega), takeByte_short m (a + 2 + 2 + 2 + 2 + 1) h6,
      bind, Except.bind]
  by_cases h7 : m.len < a + 2 + 2 + 2 + 2 + 1 + 1 + 2
  · simp only [takeWord_ok m a (by omega), takeWord_ok m (a + 2) (by omega),
      takeWord_ok m (a + 2 + 2) (by omega), takeWord_ok m (a + 2 + 2 + 2) (by omega),
      takeByte_ok m (a + 2 + 2 + 2 + 2) (by omega), takeByte_ok m (a + 2 + 2 + 2 + 2 + 1) (by omega),
      takeWord_short m (a + 2 + 2 + 2 + 2 + 1 + 1) h7, bind, Except.bind]
  by_cases h8 : m.len < a + 2 + 2 + 2 + 2 + 1 + 1 + 2 + 4
  · simp only [takeWord_ok m a (by omega), takeWord_ok m (a + 2) (by omega),
      takeWord_ok m (a + 2 + 2) (by omega), takeWord_ok m (a + 2 + 2 + 2) (by omega),
      takeByte_ok m (a + 2 + 2 + 2 + 2) (by omega), takeByte_ok m (a + 2 + 2 + 2 + 2 + 1) (by omega),
      takeWord_ok m (a + 2 + 2 + 2 + 2 + 1 + 1) (by omega),
      takeIp4Addr_short m (a + 2 + 2 + 2 + 2 + 1 + 1 + 2) h8, bind, Except.bind]
  · simp only [takeWord_ok m a (by omega), takeWord_ok m (a + 2) (by omega),
      takeWord_ok m (a + 2 + 2) (by omega), takeWord_ok m (a + 2 + 2 + 2) (by omega),
      takeByte_ok m (a + 2 + 2 + 2 + 2) (by omega), takeByte_ok m (a + 2 + 2 + 2 + 2 + 1) (by omega),
      takeWord_ok m (a + 2 + 2 + 2 + 2 + 1 + 1) (by omega),
      takeIp4Addr_ok m (a + 2 + 2 + 2 + 2 + 1 + 1 + 2) (by omega),
      takeIp4Addr_short m (a + 2 + 2 + 2 + 2 + 1 + 1 + 2 + 4) (by omega), bind, Except.bind]

/-- IPV4_DECODE at an unaligned cursor (rule R110). -/
theorem ipv4Decode_contract (rom : ProtoRom) (c : Cursor) (h : c.pos % 8 ≠ 0) :
    ipv4Decode rom c = .error .contractViolation := by
  simp only [ipv4Decode]
  rw [if_pos h]

/-- PARSE over fewer than 14 bytes (rule R130). -/
theorem parseRecord_short (roms : Roms) (m : Memory) (h : m.len < 14) :
    parseRecord roms m = ethFailed .insufficientInput := by
  have e := ethDecode_short roms.etype m 0 (by omega)
  simp only [Nat.mul_zero] at e
  simp only [parseRecord, e]

/-- PARSE over 14 to 33 bytes (rule R130). -/
theorem parseRecord_ethOnly (roms : Roms) (m : Memory) (h : 14 ≤ m.len) (h' : m.len < 34) :
    parseRecord roms m = ipv4Failed (ethHeaderAt roms.etype m 0) .insufficientInput := by
  have e := ethDecode_ok roms.etype m 0 (by omega)
  simp only [Nat.mul_zero] at e
  simp only [parseRecord, e, ipv4Decode_short roms.proto m (0 + 14) (by omega)]

/-- PARSE over 34 bytes or more (rule R130). -/
theorem parseRecord_both (roms : Roms) (m : Memory) (h : 34 ≤ m.len) :
    parseRecord roms m = bothDecoded (ethHeaderAt roms.etype m 0) (ipv4HeaderAt roms.proto m 14)
      (csumValidate roms.proto (ipv4HeaderAt roms.proto m 14)) := by
  have e := ethDecode_ok roms.etype m 0 (by omega)
  simp only [Nat.mul_zero] at e
  simp only [parseRecord, e, ipv4Decode_ok roms.proto m (0 + 14) (by omega)]

/-- A call that PARSE may take runs, whatever its bytes (rules R60, R148). -/
theorem execParse_admitted (bytes : List Byte) (s : State) (h : s.admits bytes.length = true) :
    execParse bytes s
      = .next (s.setRecord (Memory.ofBytes bytes) (parseRecord s.roms (Memory.ofBytes bytes))) := by
  simp only [execParse, h, if_true]

end Sys2Proof.Machine
end

