-- ==== Sys2Proof/Laws/Checksum.lean ====
section
/-! SUPPORT. Laws of the fragmentation words and of the checksum: the round trip, the fold, the sum. -/

namespace Sys2Proof.Machine

/-- The offset and flag of a re-encoded `Fragmented` (rule R92). -/
theorem fragEncode_fragmented_toNat (m : Bool) (o : BitVec 13) :
    (fragEncode (.fragmented m o)).toNat = m.toNat * 8192 + o.toNat := by
  have ho := o.isLt
  cases m
  · simp [fragEncode]
    omega
  · simp only [fragEncode, BitVec.toNat_or, if_true]
    have h1 : (1#16 <<< 13).toNat = 1 <<< 13 := by decide
    rw [h1, BitVec.toNat_setWidth, Nat.mod_eq_of_lt (by omega), ← Nat.shiftLeft_add_eq_or_of_lt ho,
      Nat.shiftLeft_eq]
    simp

/-- The three fields of a fragmentation word as numbers (rule R54). -/
theorem fragSlices_toNat (w : U16) :
    fragDont w = decide (w.toNat / 16384 % 2 = 1) ∧ fragMore w = decide (w.toNat / 8192 % 2 = 1)
      ∧ (fragOffset w).toNat = w.toNat % 8192 := by
  refine ⟨?_, ?_, ?_⟩
  · simp [fragDont, BitVec.getLsbD, Nat.testBit_eq_decide_div_mod_eq]
  · simp [fragMore, BitVec.getLsbD, Nat.testBit_eq_decide_div_mod_eq]
  · simp [fragOffset, BitVec.extractLsb'_toNat]

/-- FRAG_DECODE undoes FRAG_ENCODE (rule R94). -/
theorem fragDecode_encode (f : Fragmentation) : fragDecode (fragEncode f) = f := by
  cases f with
  | noFragmentation => decide
  | fragmented m o =>
    have hn := fragEncode_fragmented_toNat m o
    have ho := o.isLt
    obtain ⟨h1, h2, h3⟩ := fragSlices_toNat (fragEncode (.fragmented m o))
    rw [hn] at h1 h2 h3
    have e1 : fragDont (fragEncode (.fragmented m o)) = false := by
      rw [h1, decide_eq_false_iff_not]; cases m <;> simp <;> omega
    have e2 : fragMore (fragEncode (.fragmented m o)) = m := by
      rw [h2]; cases m <;> simp <;> omega
    have e3 : fragOffset (fragEncode (.fragmented m o)) = o := by
      apply BitVec.eq_of_toNat_eq; rw [h3]; omega
    simp [fragDecode, fragOfFields, e1, e2, e3]

/-- One pass, as numbers (rule R122). -/
theorem foldPass_toNat (s : U32) : (foldPass s).toNat = s.toNat % 65536 + s.toNat / 65536 := by
  have hs := s.isLt
  simp only [foldPass]
  rw [BitVec.toNat_add, BitVec.toNat_and, BitVec.toNat_ushiftRight, Nat.shiftRight_eq_div_pow]
  have : (0xFFFF#32).toNat = 2 ^ 16 - 1 := by decide
  rw [this, Nat.and_two_pow_sub_one_eq_mod]
  omega

theorem lt_carry (x : U32) : (0xFFFF#32 < x) ↔ 65535 < x.toNat := by simp [BitVec.lt_def]

/-- A pass keeps the sum's residue modulo 0xFFFF, and zero is the only sum it makes zero (rule R122). -/
theorem foldPass_residue (s : U32) :
    (foldPass s).toNat % 65535 = s.toNat % 65535 ∧ ((foldPass s).toNat = 0 ↔ s.toNat = 0) := by
  have hs := s.isLt
  rw [foldPass_toNat]
  constructor
  · omega
  · omega

/-- So does any number of passes (rule R122). -/
theorem foldLoop_residue (n : Nat) : ∀ s : U32,
    (foldLoop n s).toNat % 65535 = s.toNat % 65535 ∧ ((foldLoop n s).toNat = 0 ↔ s.toNat = 0) := by
  induction n with
  | zero => intro s; exact ⟨rfl, Iff.rfl⟩
  | succ n ih =>
    intro s
    simp only [foldLoop]
    split
    · obtain ⟨h1, h2⟩ := ih (foldPass s)
      obtain ⟨h3, h4⟩ := foldPass_residue s
      exact ⟨h1.trans h3, h2.trans h4⟩
    · exact ⟨rfl, Iff.rfl⟩

/-- After two passes no carry remains (rules R122, R131). -/
theorem foldLoop_two (s : U32) : (foldLoop 2 s).toNat ≤ 65535 := by
  have hs := s.isLt
  have p1 := foldPass_toNat s
  have p2 := foldPass_toNat (foldPass s)
  simp only [foldLoop, lt_carry]
  split
  · split
    · rw [p2, p1]; omega
    · omega
  · omega

/-- A sum without a carry is not folded further (rule R122). -/
theorem foldLoop_done (n : Nat) (s : U32) (h : s.toNat ≤ 65535) : foldLoop n s = s := by
  cases n with
  | zero => rfl
  | succ n => simp only [foldLoop, lt_carry]; rw [if_neg (by omega)]

/-- What the fold is, as a number: the residue, with 0xFFFF for a nonzero multiple of 0xFFFF (rule R122
corner case 3). -/
theorem csumFold_spec (s : U32) :
    (csumFold s).toNat % 65535 = s.toNat % 65535 ∧ ((csumFold s).toNat = 0 ↔ s.toNat = 0) := by
  have h := foldLoop_two s
  have e : (csumFold s).toNat = (foldLoop 2 s).toNat := by
    simp only [csumFold, BitVec.toNat_setWidth]; omega
  rw [e]
  exact foldLoop_residue 2 s

/-- The sum as a number: nine 16-bit words do not overflow 32 bits (rule R125). -/
theorem csumSum_toNat (w : CsumWords) :
    (csumSum w).toNat = w.w0.toNat + w.w1.toNat + w.w2.toNat + w.w3.toNat + w.w4.toNat + w.w5.toNat
      + w.w6.toNat + w.w7.toNat + w.w8.toNat := by
  have h0 := w.w0.isLt
  have h1 := w.w1.isLt
  have h2 := w.w2.isLt
  have h3 := w.w3.isLt
  have h4 := w.w4.isLt
  have h5 := w.w5.isLt
  have h6 := w.w6.isLt
  have h7 := w.w7.isLt
  have h8 := w.w8.isLt
  simp only [csumSum, BitVec.toNat_add, BitVec.toNat_setWidth]
  omega

/-- `(hi << 8) | lo` as a number (rule R120). -/
theorem joinBytes_toNat (hi lo : Byte) : (joinBytes hi lo).toNat = hi.toNat * 256 + lo.toNat := by
  have h1 := hi.isLt
  have h2 := lo.isLt
  simp only [joinBytes, BitVec.toNat_or, BitVec.toNat_shiftLeft, BitVec.toNat_setWidth]
  have e1 : hi.toNat % 2 ^ 16 = hi.toNat := by omega
  have e2 : lo.toNat % 2 ^ 16 = lo.toNat := by omega
  have e3 : hi.toNat <<< 8 % 2 ^ 16 = hi.toNat <<< 8 := by rw [Nat.shiftLeft_eq]; omega
  rw [e1, e2, e3, ← Nat.shiftLeft_add_eq_or_of_lt h2, Nat.shiftLeft_eq]

/-- Word 0 as a number: its fields do not overlap (rule R120). -/
theorem joinWord0_toNat (v h : BitVec 4) (d : BitVec 6) (e : BitVec 2) :
    (joinWord0 v h d e).toNat = v.toNat * 4096 + h.toNat * 256 + d.toNat * 4 + e.toNat := by
  have h1 := v.isLt
  have h2 := h.isLt
  have h3 := d.isLt
  have h4 := e.isLt
  simp only [joinWord0, BitVec.toNat_or, BitVec.toNat_shiftLeft, BitVec.toNat_setWidth]
  have e1 : (v.toNat % 2 ^ 16) <<< 12 % 2 ^ 16 = v.toNat <<< 12 := by
    rw [Nat.shiftLeft_eq, Nat.shiftLeft_eq]; omega
  have e2 : (h.toNat % 2 ^ 16) <<< 8 % 2 ^ 16 = h.toNat <<< 8 := by
    rw [Nat.shiftLeft_eq, Nat.shiftLeft_eq]; omega
  have e3 : (d.toNat % 2 ^ 16) <<< 2 % 2 ^ 16 = d.toNat <<< 2 := by
    rw [Nat.shiftLeft_eq, Nat.shiftLeft_eq]; omega
  have e4 : e.toNat % 2 ^ 16 = e.toNat := by omega
  rw [e1, e2, e3, e4, Nat.or_assoc, Nat.or_assoc, ← Nat.shiftLeft_add_eq_or_of_lt (a := d.toNat) h4]
  have hd : d.toNat <<< 2 + e.toNat < 2 ^ 8 := by rw [Nat.shiftLeft_eq]; omega
  rw [← Nat.shiftLeft_add_eq_or_of_lt hd]
  have hh : h.toNat <<< 8 + (d.toNat <<< 2 + e.toNat) < 2 ^ 12 := by
    rw [Nat.shiftLeft_eq] at hd ⊢; rw [Nat.shiftLeft_eq]; omega
  rw [← Nat.shiftLeft_add_eq_or_of_lt hh]
  simp only [Nat.shiftLeft_eq]
  omega

/-- Two sums fold alike exactly if they agree modulo 0xFFFF and both or neither are zero (rule R122). -/
theorem csumFold_eq_iff (s t : U32) :
    csumFold s = csumFold t ↔ s.toNat % 65535 = t.toNat % 65535 ∧ (s.toNat = 0 ↔ t.toNat = 0) := by
  obtain ⟨a1, a2⟩ := csumFold_spec s
  obtain ⟨b1, b2⟩ := csumFold_spec t
  have ha := (csumFold s).isLt
  have hb := (csumFold t).isLt
  constructor
  · intro h; rw [h] at a1 a2; exact ⟨by omega, by rw [← a2, ← b2]⟩
  · rintro ⟨h1, h2⟩
    apply BitVec.eq_of_toNat_eq
    omega

end Sys2Proof.Machine
end

