-- ==== Sys2Proof/Laws/Encoding.lean ====
section
/-! SUPPORT. The byte orders and slices undo one another. -/

namespace Sys2Proof

theorem be16_toNat (hi lo : Byte) : (be16 hi lo).toNat = hi.toNat * 256 + lo.toNat := by
  rw [be16, BitVec.toNat_append, ← Nat.shiftLeft_add_eq_or_of_lt (by omega), Nat.shiftLeft_eq]

@[simp] theorem be16_hi8_lo8 (w : U16) : be16 (hi8 w) (lo8 w) = w := by
  apply BitVec.eq_of_toNat_eq
  have hw := w.isLt
  simp only [be16_toNat, hi8, lo8, BitVec.extractLsb'_toNat, Nat.shiftRight_eq_div_pow]; omega

@[simp] theorem hi8_be16 (hi lo : Byte) : hi8 (be16 hi lo) = hi := by
  apply BitVec.eq_of_toNat_eq
  have h1 := hi.isLt
  have h2 := lo.isLt
  simp only [hi8, BitVec.extractLsb'_toNat, be16_toNat, Nat.shiftRight_eq_div_pow]; omega

@[simp] theorem lo8_be16 (hi lo : Byte) : lo8 (be16 hi lo) = lo := by
  apply BitVec.eq_of_toNat_eq
  have h2 := lo.isLt
  simp only [lo8, BitVec.extractLsb'_toNat, be16_toNat, Nat.shiftRight_eq_div_pow]; omega

@[simp] theorem be32_byte32 (w : U32) : be32 (byte32 w 3) (byte32 w 2) (byte32 w 1) (byte32 w 0) = w := by
  apply BitVec.eq_of_getLsbD_eq
  intro i hi
  simp only [be32, byte32, BitVec.getLsbD_append, BitVec.getLsbD_extractLsb']
  interval_cases i <;> simp

theorem word0Wire_toNat (v h : BitVec 4) (d : BitVec 6) (e : BitVec 2) :
    (word0Wire v h d e).toNat = v.toNat * 4096 + h.toNat * 256 + d.toNat * 4 + e.toNat := by
  have h1 := v.isLt
  have h2 := h.isLt
  have h3 := d.isLt
  have h4 := e.isLt
  simp only [word0Wire, BitVec.toNat_append]
  rw [← Nat.shiftLeft_add_eq_or_of_lt h2, ← Nat.shiftLeft_add_eq_or_of_lt h3,
    ← Nat.shiftLeft_add_eq_or_of_lt h4]
  simp only [Nat.shiftLeft_eq]; omega

@[simp] theorem word0Version_wire (v h : BitVec 4) (d : BitVec 6) (e : BitVec 2) :
    word0Version (word0Wire v h d e) = v := by
  apply BitVec.eq_of_toNat_eq
  have h1 := v.isLt
  have h2 := h.isLt
  have h3 := d.isLt
  have h4 := e.isLt
  simp only [word0Version, BitVec.extractLsb'_toNat, word0Wire_toNat, Nat.shiftRight_eq_div_pow]; omega

@[simp] theorem word0HeaderLength_wire (v h : BitVec 4) (d : BitVec 6) (e : BitVec 2) :
    word0HeaderLength (word0Wire v h d e) = h := by
  apply BitVec.eq_of_toNat_eq
  have h1 := v.isLt
  have h2 := h.isLt
  have h3 := d.isLt
  have h4 := e.isLt
  simp only [word0HeaderLength, BitVec.extractLsb'_toNat, word0Wire_toNat, Nat.shiftRight_eq_div_pow]; omega

@[simp] theorem word0Dscp_wire (v h : BitVec 4) (d : BitVec 6) (e : BitVec 2) :
    word0Dscp (word0Wire v h d e) = d := by
  apply BitVec.eq_of_toNat_eq
  have h1 := v.isLt
  have h2 := h.isLt
  have h3 := d.isLt
  have h4 := e.isLt
  simp only [word0Dscp, BitVec.extractLsb'_toNat, word0Wire_toNat, Nat.shiftRight_eq_div_pow]; omega

@[simp] theorem word0Ecn_wire (v h : BitVec 4) (d : BitVec 6) (e : BitVec 2) :
    word0Ecn (word0Wire v h d e) = e := by
  apply BitVec.eq_of_toNat_eq
  have h1 := v.isLt
  have h2 := h.isLt
  have h3 := d.isLt
  have h4 := e.isLt
  simp only [word0Ecn, BitVec.extractLsb'_toNat, word0Wire_toNat, Nat.shiftRight_eq_div_pow]; omega

theorem fragWire_toNat (r f m : Bool) (o : BitVec 13) :
    (fragWire r f m o).toNat = r.toNat * 32768 + f.toNat * 16384 + m.toNat * 8192 + o.toNat := by
  have h1 := o.isLt
  have e1 : (BitVec.ofBool f).toNat < 2 ^ 1 := (BitVec.ofBool f).isLt
  have e2 : (BitVec.ofBool m).toNat < 2 ^ 1 := (BitVec.ofBool m).isLt
  simp only [fragWire, BitVec.toNat_append]
  rw [← Nat.shiftLeft_add_eq_or_of_lt e1, ← Nat.shiftLeft_add_eq_or_of_lt e2,
    ← Nat.shiftLeft_add_eq_or_of_lt h1]
  simp only [Nat.shiftLeft_eq, BitVec.toNat_ofBool]; omega

@[simp] theorem fragReserved_wire (r f m : Bool) (o : BitVec 13) : fragReserved (fragWire r f m o) = r := by
  have h1 := o.isLt
  simp only [fragReserved, BitVec.getLsbD, Nat.testBit_eq_decide_div_mod_eq, fragWire_toNat]
  cases r <;> cases f <;> cases m <;> simp <;> omega

@[simp] theorem fragDont_wire (r f m : Bool) (o : BitVec 13) : fragDont (fragWire r f m o) = f := by
  have h1 := o.isLt
  simp only [fragDont, BitVec.getLsbD, Nat.testBit_eq_decide_div_mod_eq, fragWire_toNat]
  cases r <;> cases f <;> cases m <;> simp <;> omega

@[simp] theorem fragMore_wire (r f m : Bool) (o : BitVec 13) : fragMore (fragWire r f m o) = m := by
  have h1 := o.isLt
  simp only [fragMore, BitVec.getLsbD, Nat.testBit_eq_decide_div_mod_eq, fragWire_toNat]
  cases r <;> cases f <;> cases m <;> simp <;> omega

@[simp] theorem fragOffset_wire (r f m : Bool) (o : BitVec 13) : fragOffset (fragWire r f m o) = o := by
  apply BitVec.eq_of_toNat_eq
  have h1 := o.isLt
  simp only [fragOffset, BitVec.extractLsb'_toNat, Nat.shiftRight_eq_div_pow, fragWire_toNat]
  cases r <;> cases f <;> cases m <;> simp <;> omega

/-- The word that FRAG_ENCODE gives is the wire pattern with its first two bits clear (rules R54, R92). -/
theorem fragWire_eq_encode (m : Bool) (o : BitVec 13) :
    fragWire false false m o = Machine.fragEncode (.fragmented m o) := by
  apply BitVec.eq_of_toNat_eq
  rw [fragWire_toNat, Machine.fragEncode_fragmented_toNat]; simp

/-- The pattern of word 0 is the validator's formula for it (rules R53, R120). -/
theorem word0Wire_eq_join (v h : BitVec 4) (d : BitVec 6) (e : BitVec 2) :
    word0Wire v h d e = Machine.joinWord0 v h d e := by
  apply BitVec.eq_of_toNat_eq
  rw [word0Wire_toNat, Machine.joinWord0_toNat]

theorem nat64_bytes (n : Nat) (h : n < 2 ^ 64) :
    nat64 (byteOfNat n 7) (byteOfNat n 6) (byteOfNat n 5) (byteOfNat n 4)
      (byteOfNat n 3) (byteOfNat n 2) (byteOfNat n 1) (byteOfNat n 0) = n := by
  simp only [nat64, byteOfNat, BitVec.toNat_ofNat]
  norm_num
  omega

theorem widthOfByte_ofWidth (w : Nat) (h : w < 256) : widthOfByte (byteOfWidth w) = w := by
  simp only [widthOfByte, byteOfWidth, BitVec.toNat_ofNat]; omega

@[simp] theorem cursorArg_selOf (c : CursorArg) : cursorArg (selOf c.buf) c.pos (bufBytes c.buf) = .ok c := by
  obtain ⟨b, p⟩ := c
  cases b <;> simp [cursorArg, selOf, bufBytes]

@[simp] theorem fragOfTag_zero (w : U16) : fragOfTag 0#8 w = .ok .noFragmentation := rfl
@[simp] theorem fragOfTag_one (w : U16) : fragOfTag 1#8 w = .ok (.fragmented (fragMore w) (fragOffset w)) := rfl

/-- The variant tags of a header operand read back (rules R19, R20). -/
theorem decodeHeader_encode (h : IPV4Header) : decodeHeader (encodeHeader h) = .ok h := by
  obtain ⟨v, l, d, e, tl, id, f, ttl, p, c, s, t⟩ := h
  obtain ⟨s0, s1, s2, s3⟩ := s
  obtain ⟨t0, t1, t2, t3⟩ := t
  cases f <;> cases p <;>
    simp [encodeHeader, encodeFrag, encodeKind, encodeU16, Ip4Addr.bytes, decodeHeader, kindOfTag]

end Sys2Proof
end

