-- ==== Sys2Proof/Laws/PerInstr.lean ====
section
/-! SUPPORT. The family RoundTrip, said of one instruction at a time: decoding what the encoder writes gives
the instruction back. -/

namespace Sys2Proof.Laws.RoundTrip

/-- With tables as rule R6 wants them, a well-formed instruction's bytes, read in its form, decode to
it. -/
def Statement (i : Instr) : Prop :=
  ∀ roms : Roms, roms.wf = true → i.wellFormed roms = true →
    decode roms (formOf i) (encode roms i) = .ok i

theorem cursor_pos_lt {c : CursorArg} (h : c.wellFormed = true) : c.pos < 2 ^ 64 := by
  simp only [CursorArg.wellFormed, Bool.and_eq_true, decide_eq_true_eq] at h
  exact h.1

theorem takeBits (c : CursorArg) (width : Nat) : Statement (.takeBits c width) := by
  intro roms _ h
  simp only [Instr.wellFormed, Bool.and_eq_true, decide_eq_true_eq] at h
  simp [encode, formOf, decode, decodeOp, decodeCall, encodeNat64, decodeTakeBits,
    nat64_bytes _ (cursor_pos_lt h.1), widthOfByte_ofWidth _ h.2, Except.map]

theorem takeBytes (c : CursorArg) (n : Nat) : Statement (.takeBytes c n) := by
  intro roms _ h
  simp only [Instr.wellFormed, Bool.and_eq_true, decide_eq_true_eq] at h
  simp [encode, formOf, decode, decodeOp, decodeCall, encodeNat64, decodeTakeBytes,
    nat64_bytes _ (cursor_pos_lt h.1), nat64_bytes _ h.2, Except.map]

theorem etypeLookup (code : U16) : Statement (.etypeLookup code) := by
  intro roms _ _
  simp [encode, formOf, decode, decodeOp, decodeCall, encodeU16, decodeU16, Except.map]

theorem protoLookup (code : Byte) : Statement (.protoLookup code) := by
  intro roms _ _
  simp [encode, formOf, decode, decodeOp, decodeCall, decodeU8, Except.map]

theorem protoCode (kind : ProtocolKind) : Statement (.protoCode kind) := by
  intro roms _ _
  cases kind <;>
    simp [encode, formOf, decode, decodeOp, decodeCall, encodeKind, decodeKind, kindOfTag, Except.map]

theorem fragDecode (word : U16) : Statement (.fragDecode word) := by
  intro roms _ _
  simp [encode, formOf, decode, decodeOp, decodeCall, encodeU16, decodeU16, Except.map]

theorem fragEncode (value : Fragmentation) : Statement (.fragEncode value) := by
  intro roms _ _
  cases value <;>
    simp [encode, formOf, decode, decodeOp, decodeCall, encodeFrag, encodeU16, decodeFrag, Except.map]

theorem ethDecode (c : CursorArg) : Statement (.ethDecode c) := by
  intro roms _ h
  simp only [Instr.wellFormed] at h
  simp [encode, formOf, decode, decodeOp, decodeCall, encodeNat64, decodeCursor,
    nat64_bytes _ (cursor_pos_lt h), Except.map]

theorem ipv4Decode (c : CursorArg) : Statement (.ipv4Decode c) := by
  intro roms _ h
  simp only [Instr.wellFormed] at h
  simp [encode, formOf, decode, decodeOp, decodeCall, encodeNat64, decodeCursor,
    nat64_bytes _ (cursor_pos_lt h), Except.map]

theorem csumWords (h : IPV4Header) : Statement (.csumWords h) := by
  intro roms _ _
  simp [encode, formOf, decode, decodeOp, decodeCall, decodeHeader_encode, Except.map]

theorem csumFold (sum : U32) : Statement (.csumFold sum) := by
  intro roms _ _
  simp [encode, formOf, decode, decodeOp, decodeCall, decodeU32, Except.map]

theorem csumValidate (h : IPV4Header) : Statement (.csumValidate h) := by
  intro roms _ _
  simp [encode, formOf, decode, decodeOp, decodeCall, decodeHeader_encode, Except.map]

theorem parse (bytes : List Byte) : Statement (.parse bytes) := by
  intro roms _ _
  simp [encode, formOf, decode, decodeOp, decodeCall]

theorem opReserved13 : Statement .opReserved13 := fun _ _ _ => rfl
theorem opReserved14 : Statement .opReserved14 := fun _ _ _ => rfl
theorem opReserved15 : Statement .opReserved15 := fun _ _ _ => rfl

theorem ethHdr (destination source : MacAddr) (code : U16) : Statement (.ethHdr destination source code) := by
  intro roms _ _
  simp [encode, formOf, decode, ethWireBytes, MacAddr.bytes, encodeU16, decodeEthHdr]

theorem ipv4Hdr (w : Ipv4Wire) : Statement (.ipv4Hdr w) := by
  intro roms _ _
  simp [encode, formOf, decode, Ipv4Wire.bytes, Ip4Addr.bytes, encodeU16, decodeIpv4Hdr]

theorem ipv4W0 (version headerLength : BitVec 4) (dscp : BitVec 6) (ecn : BitVec 2) :
    Statement (.ipv4W0 version headerLength dscp ecn) := by
  intro roms _ _
  simp [encode, formOf, decode, encodeU16, decodeWord, instrOfWord0]

theorem fragNofrag (reserved more : Bool) (offset : BitVec 13) : Statement (.fragNofrag reserved more offset) := by
  intro roms _ _
  simp [encode, formOf, decode, encodeU16, decodeWord, instrOfFragWord]

theorem fragFragmented (reserved more : Bool) (offset : BitVec 13) :
    Statement (.fragFragmented reserved more offset) := by
  intro roms _ _
  simp [encode, formOf, decode, encodeU16, decodeWord, instrOfFragWord]

theorem fragEncNofrag : Statement .fragEncNofrag := by
  intro roms _ _
  simp [encode, formOf, decode, encodeU16, decodeWord, instrOfFragEncWord]

theorem fragEncFragmented (more : Bool) (offset : BitVec 13) : Statement (.fragEncFragmented more offset) := by
  intro roms _ _
  have h1 : fragWire false false more offset ≠ 0x4000#16 := by
    intro h
    have e := fragDont_wire false false more offset
    rw [h] at e
    exact absurd e (by decide)
  have h2 : fragWire false false more offset &&& 0xC000#16 = 0#16 := by
    apply BitVec.eq_of_getLsbD_eq
    intro i hi
    rw [BitVec.getLsbD_and]
    have a1 := fragReserved_wire false false more offset
    have a2 := fragDont_wire false false more offset
    simp only [fragReserved] at a1
    simp only [fragDont] at a2
    interval_cases i <;> first | (rw [a1]; rfl) | (rw [a2]; rfl) | simp
  simp [encode, formOf, decode, encodeU16, decodeWord, instrOfFragEncWord, h1, h2]

theorem csumW4 (timeToLive code : Byte) : Statement (.csumW4 timeToLive code) := by
  intro roms _ _
  simp [encode, formOf, decode, decodeWord]

theorem csumW5ToW8 (a b : Byte) : Statement (.csumW5ToW8 a b) := by
  intro roms _ _
  simp [encode, formOf, decode, decodeWord]

theorem etypeIpv4 : Statement .etypeIpv4 := by
  intro roms _ _
  simp [encode, formOf, decode, encodeU16, decodeWord, instrOfEtypeCode]

theorem etypeIpv6 : Statement .etypeIpv6 := by
  intro roms h _
  simp only [Roms.wf, Bool.and_eq_true, decide_eq_true_eq] at h
  have h1 : roms.etype.ipv6 ≠ roms.etype.ipv4 := by tauto
  simp [encode, formOf, decode, encodeU16, decodeWord, instrOfEtypeCode, h1]

theorem etypeUnknown (code : U16) : Statement (.etypeUnknown code) := by
  intro roms _ h
  simp only [Instr.wellFormed, Bool.and_eq_true, decide_eq_true_eq] at h
  simp [encode, formOf, decode, encodeU16, decodeWord, instrOfEtypeCode, h.1, h.2]

theorem protoIcmp : Statement .protoIcmp := by
  intro roms _ _
  simp [encode, formOf, decode, instrOfProtoCode]

theorem protoTcp : Statement .protoTcp := by
  intro roms h _
  simp only [Roms.wf, Bool.and_eq_true, decide_eq_true_eq] at h
  have h1 : roms.proto.tcp ≠ roms.proto.icmp := by tauto
  simp [encode, formOf, decode, instrOfProtoCode, h1]

theorem protoUdp : Statement .protoUdp := by
  intro roms h _
  simp only [Roms.wf, Bool.and_eq_true, decide_eq_true_eq] at h
  have h1 : roms.proto.udp ≠ roms.proto.icmp := by tauto
  have h2 : roms.proto.udp ≠ roms.proto.tcp := by tauto
  simp [encode, formOf, decode, instrOfProtoCode, h1, h2]

theorem protoUnknown (code : Byte) : Statement (.protoUnknown code) := by
  intro roms _ h
  simp only [Instr.wellFormed, Bool.and_eq_true, decide_eq_true_eq] at h
  simp [encode, formOf, decode, instrOfProtoCode, h.1.1, h.1.2, h.2]

end Sys2Proof.Laws.RoundTrip
end

