-- ==== Sys2Proof/Laws/Step.lean ====
section
/-! SUPPORT. What an instruction and a step can do, said once: the inversion lemma of exec, and the cases
of a step. -/

namespace Sys2Proof.Machine

/-- The calls on a cursor operand. -/
theorem withCursor_cases (s : State) (c : CursorArg) (k : Cursor → Host.Outcome State Fault Refusal) :
    (fits s c = true ∧ withCursor s c k = k (cursorOf s c)) ∨
    (fits s c = false ∧ withCursor s c k = .refused .inputTooLong) := by
  cases h : fits s c <;> simp [withCursor, h]

/-- What an instruction other than PARSE can do: return a value with no register written, or be
refused. -/
def ReturnsOrRefused (s : State) (o : Host.Outcome State Fault Refusal) : Prop :=
  (∃ r, o = .next (s.setReturned r)) ∨ ∃ r, o = .refused r

theorem returns_answer (s : State) (r : Returned) : ReturnsOrRefused s (s.answer r) := .inl ⟨r, rfl⟩

theorem returns_finish {α : Type} (s : State) (c : CursorArg)
    (r : Cursor → Except ErrorKind (α × Cursor)) (v : α → Value) :
    ReturnsOrRefused s (withCursor s c (fun cur => s.finish (r cur) v)) := by
  rcases withCursor_cases s c (fun cur => s.finish (r cur) v) with ⟨_, h⟩ | ⟨_, h⟩
  · rw [h]
    rcases finish_cases s (r (cursorOf s c)) v with ⟨a, d, _, e⟩ | ⟨_, e⟩ | ⟨_, e⟩
    · exact .inl ⟨_, e⟩
    · exact .inl ⟨_, e⟩
    · exact .inr ⟨_, e⟩
  · exact .inr ⟨_, h⟩

/-- The inversion of exec: a PARSE that is taken or refused, or an instruction that returns a value and
writes no register, or is refused. No instruction faults. -/
theorem exec_cases (i : Instr) (s : State) :
    (∃ bytes, i = .parse bytes ∧ exec i s
      = .next (s.setRecord (Memory.ofBytes bytes) (parseRecord s.roms (Memory.ofBytes bytes)))) ∨
    ReturnsOrRefused s (exec i s) := by
  cases i with
  | parse bytes =>
    cases h : s.admits bytes.length with
    | true => exact .inl ⟨bytes, rfl, execParse_admitted bytes s h⟩
    | false => exact .inr (.inr ⟨.inputTooLong, by simp [exec, execParse, h]⟩)
  | takeBits c w => exact .inr (returns_finish s c (fun cur => takeBits cur w) (.bits w))
  | takeBytes c n => exact .inr (returns_finish s c (fun cur => takeBytes cur n) .bytes)
  | ethDecode c => exact .inr (returns_finish s c (ethDecode s.roms.etype) .ethHeader)
  | ipv4Decode c => exact .inr (returns_finish s c (ipv4Decode s.roms.proto) .ipv4Header)
  | opReserved13 => exact .inr (.inr ⟨_, rfl⟩)
  | opReserved14 => exact .inr (.inr ⟨_, rfl⟩)
  | opReserved15 => exact .inr (.inr ⟨_, rfl⟩)
  | etypeLookup _ => exact .inr (returns_answer s _)
  | protoLookup _ => exact .inr (returns_answer s _)
  | protoCode _ => exact .inr (returns_answer s _)
  | fragDecode _ => exact .inr (returns_answer s _)
  | fragEncode _ => exact .inr (returns_answer s _)
  | csumWords _ => exact .inr (returns_answer s _)
  | csumFold _ => exact .inr (returns_answer s _)
  | csumValidate _ => exact .inr (returns_answer s _)
  | ethHdr _ _ _ => exact .inr (returns_answer s _)
  | ipv4Hdr _ => exact .inr (returns_answer s _)
  | ipv4W0 _ _ _ _ => exact .inr (returns_answer s _)
  | fragNofrag _ _ _ => exact .inr (returns_answer s _)
  | fragFragmented _ _ _ => exact .inr (returns_answer s _)
  | fragEncNofrag => exact .inr (returns_answer s _)
  | fragEncFragmented _ _ => exact .inr (returns_answer s _)
  | csumW4 _ _ => exact .inr (returns_answer s _)
  | csumW5ToW8 _ _ => exact .inr (returns_answer s _)
  | etypeIpv4 => exact .inr (returns_answer s _)
  | etypeIpv6 => exact .inr (returns_answer s _)
  | etypeUnknown _ => exact .inr (returns_answer s _)
  | protoIcmp => exact .inr (returns_answer s _)
  | protoTcp => exact .inr (returns_answer s _)
  | protoUdp => exact .inr (returns_answer s _)
  | protoUnknown _ => exact .inr (returns_answer s _)

/-- A host's read returns a value with no register written, or faults. -/
theorem readResult_cases (reg : ResultReg) (s : State) :
    (∃ r, readResult reg s = .next (s.setReturned r)) ∨ ∃ f, readResult reg s = .fault f := by
  have h : ∀ {α : Type} (p : Bool) (v : Option α) (g : α → Value) (f : Fault),
      (∃ r, s.readPresent p v g f = .next (s.setReturned r)) ∨ ∃ f', s.readPresent p v g f = .fault f' := by
    intro α p v g f
    cases p
    · exact .inr ⟨f, rfl⟩
    · cases v with
      | none => exact .inr ⟨f, rfl⟩
      | some a => exact .inl ⟨_, rfl⟩
  cases reg with
  | eth => exact h _ _ _ _
  | ip4 => exact h _ _ _ _
  | csumOk => exact h _ _ _ _
  | ethPresent => exact .inl ⟨_, rfl⟩
  | ip4Present => exact .inl ⟨_, rfl⟩
  | remStart => exact .inl ⟨_, rfl⟩
  | remainder => exact .inl ⟨_, rfl⟩
  | status => exact .inl ⟨_, rfl⟩
  | pos => exact .inl ⟨_, rfl⟩

/-- The inversion of a step that goes on: nothing to do, a transaction over a byte sequence of the
host's, or a returned value with no register written. -/
theorem step_cases {s t : State} (h : step s = .next t) :
    (s.pending = [] ∧ t = s) ∨
    (∃ form call rest bytes, s.pending = .call form call :: rest ∧ decode s.roms form call = .ok (.parse bytes) ∧
      t = (s.served rest).setRecord (Memory.ofBytes bytes) (parseRecord s.roms (Memory.ofBytes bytes))) ∨
    (∃ q rest r, s.pending = q :: rest ∧ t = (s.served rest).setReturned r) := by
  unfold step at h
  split at h
  · next hp => exact .inl ⟨hp, (Host.Outcome.next.inj h).symm⟩
  · next reg rest hp =>
    rcases readResult_cases reg (s.served rest) with ⟨r, e⟩ | ⟨f, e⟩
    · rw [e] at h; exact .inr (.inr ⟨_, rest, r, hp, (Host.Outcome.next.inj h).symm⟩)
    · rw [e] at h; cases h
  · next form call rest hp =>
    split at h
    · next i hd =>
      rcases exec_cases i (s.served rest) with ⟨bytes, hi, e⟩ | ⟨r, e⟩ | ⟨r, e⟩
      · rw [e] at h
        exact .inr (.inl ⟨form, call, rest, bytes, hp, by rw [hd, hi], (Host.Outcome.next.inj h).symm⟩)
      · rw [e] at h; exact .inr (.inr ⟨_, rest, r, hp, (Host.Outcome.next.inj h).symm⟩)
      · rw [e] at h; cases h
    · cases h

end Sys2Proof.Machine
end

