-- ==== Sys2Proof/Laws/Exec.lean ====
section
/-! SUPPORT. Inversion lemmas of the calls on a cursor, of PARSE and of the validator, and the layouts of
the two headers read off a buffer. -/

namespace Sys2Proof.Machine

/-! ### Calls on a cursor operand -/

theorem exec_takeBits (c : CursorArg) (w : Nat) (s : State) (h : fits s c = true) :
    exec (.takeBits c w) s = s.finish (takeBits (cursorOf s c) w) (.bits w) := by
  simp [exec, execTakeBits, withCursor, h]

theorem exec_takeBytes (c : CursorArg) (n : Nat) (s : State) (h : fits s c = true) :
    exec (.takeBytes c n) s = s.finish (takeBytes (cursorOf s c) n) .bytes := by
  simp [exec, execTakeBytes, withCursor, h]

theorem exec_ethDecode (c : CursorArg) (s : State) (h : fits s c = true) :
    exec (.ethDecode c) s = s.finish (ethDecode s.roms.etype (cursorOf s c)) .ethHeader := by
  simp [exec, execEthDecode, withCursor, h]

theorem exec_ipv4Decode (c : CursorArg) (s : State) (h : fits s c = true) :
    exec (.ipv4Decode c) s = s.finish (ipv4Decode s.roms.proto (cursorOf s c)) .ipv4Header := by
  simp [exec, execIpv4Decode, withCursor, h]

theorem setReturned_inj {s : State} {a b : Returned} (h : s.setReturned a = s.setReturned b) : a = b :=
  congrArg State.returned h

/-- Two answers that are equal return the same value. -/
theorem answer_inj {s : State} {a b : Returned}
    (h : (Host.Outcome.next (s.setReturned a) : Host.Outcome State Fault Refusal) = .next (s.setReturned b)) :
    a = b := setReturned_inj (Host.Outcome.next.inj h)

/-- What a TAKE_BITS that answers did (rule R70). -/
theorem takeBits_answers {c : CursorArg} {w : Nat} {s : State} {r : Returned}
    (h : exec (.takeBits c w) s = .next (s.setReturned r)) :
    fits s c = true ∧ 1 ≤ w ∧ w ≤ 16 ∧
      ((r = .raised .insufficientInput ∧ 8 * (bufOf s c.buf).len < c.pos + w) ∨
      (r = .valueAt (.bits w (BitVec.ofNat 16 ((bufOf s c.buf).readBits c.pos w))) ⟨bufOf s c.buf, c.pos + w⟩
        ∧ c.pos + w ≤ 8 * (bufOf s c.buf).len)) := by
  cases hf : fits s c with
  | false => simp [exec, execTakeBits, withCursor, hf] at h
  | true =>
    rw [exec_takeBits c w s hf] at h
    by_cases h1 : w < 1 ∨ 16 < w
    · rw [takeBits_contract _ _ h1] at h; simp at h
    · by_cases h2 : 8 * (bufOf s c.buf).len < c.pos + w
      · rw [takeBits_short (cursorOf s c) _ (by omega) (by omega) h2] at h
        exact ⟨rfl, by omega, by omega, .inl ⟨(answer_inj h).symm, h2⟩⟩
      · rw [takeBits_ok (cursorOf s c) _ (by omega) (by omega)
          (by show c.pos + w ≤ 8 * (bufOf s c.buf).len; omega)] at h
        exact ⟨rfl, by omega, by omega, .inr ⟨(answer_inj h).symm, by omega⟩⟩

/-- What a TAKE_BYTES that answers did (rule R72). -/
theorem takeBytes_answers {c : CursorArg} {n : Nat} {s : State} {r : Returned}
    (h : exec (.takeBytes c n) s = .next (s.setReturned r)) :
    fits s c = true ∧ c.pos % 8 = 0 ∧
      ((r = .raised .insufficientInput ∧ (bufOf s c.buf).len < c.pos / 8 + n) ∨
      (r = .valueAt (.bytes ((bufOf s c.buf).readBytes (c.pos / 8) n)) ⟨bufOf s c.buf, c.pos + 8 * n⟩
        ∧ c.pos / 8 + n ≤ (bufOf s c.buf).len)) := by
  cases hf : fits s c with
  | false => simp [exec, execTakeBytes, withCursor, hf] at h
  | true =>
    rw [exec_takeBytes c n s hf] at h
    by_cases h1 : c.pos % 8 ≠ 0
    · rw [takeBytes_contract (cursorOf s c) _ h1] at h; simp at h
    · by_cases h2 : (bufOf s c.buf).len < c.pos / 8 + n
      · rw [takeBytes_short (cursorOf s c) _ (by show c.pos % 8 = 0; omega) h2] at h
        exact ⟨rfl, by omega, .inl ⟨(answer_inj h).symm, h2⟩⟩
      · rw [takeBytes_ok (cursorOf s c) _ (by show c.pos % 8 = 0; omega)
          (by show c.pos / 8 + n ≤ (bufOf s c.buf).len; omega)] at h
        exact ⟨rfl, by omega, .inr ⟨(answer_inj h).symm, by omega⟩⟩

/-- What an ETH_DECODE that answers did (rule R100). -/
theorem ethDecode_answers {c : CursorArg} {s : State} {r : Returned}
    (h : exec (.ethDecode c) s = .next (s.setReturned r)) :
    fits s c = true ∧ c.pos % 8 = 0 ∧
      ((r = .raised .insufficientInput ∧ (bufOf s c.buf).len < c.pos / 8 + 14) ∨
      (r = .valueAt (.ethHeader (ethHeaderAt s.roms.etype (bufOf s c.buf) (c.pos / 8)))
          ⟨bufOf s c.buf, 8 * (c.pos / 8 + 14)⟩ ∧ c.pos / 8 + 14 ≤ (bufOf s c.buf).len)) := by
  cases hf : fits s c with
  | false => simp [exec, execEthDecode, withCursor, hf] at h
  | true =>
    rw [exec_ethDecode c s hf] at h
    by_cases h1 : c.pos % 8 = 0
    · have e : cursorOf s c = ⟨bufOf s c.buf, 8 * (c.pos / 8)⟩ := by simp [cursorOf]; omega
      rw [e] at h
      by_cases h2 : (bufOf s c.buf).len < c.pos / 8 + 14
      · rw [ethDecode_short _ _ _ h2] at h
        exact ⟨rfl, h1, .inl ⟨(answer_inj h).symm, h2⟩⟩
      · rw [ethDecode_ok _ _ _ (by omega)] at h
        exact ⟨rfl, h1, .inr ⟨(answer_inj h).symm, by omega⟩⟩
    · rw [ethDecode_contract _ (cursorOf s c) h1] at h; simp at h

/-- What an IPV4_DECODE that answers did (rule R110). -/
theorem ipv4Decode_answers {c : CursorArg} {s : State} {r : Returned}
    (h : exec (.ipv4Decode c) s = .next (s.setReturned r)) :
    fits s c = true ∧ c.pos % 8 = 0 ∧
      ((r = .raised .insufficientInput ∧ (bufOf s c.buf).len < c.pos / 8 + 20) ∨
      (r = .valueAt (.ipv4Header (ipv4HeaderAt s.roms.proto (bufOf s c.buf) (c.pos / 8)))
          ⟨bufOf s c.buf, 8 * (c.pos / 8 + 20)⟩ ∧ c.pos / 8 + 20 ≤ (bufOf s c.buf).len)) := by
  cases hf : fits s c with
  | false => simp [exec, execIpv4Decode, withCursor, hf] at h
  | true =>
    rw [exec_ipv4Decode c s hf] at h
    by_cases h1 : c.pos % 8 = 0
    · have e : cursorOf s c = ⟨bufOf s c.buf, 8 * (c.pos / 8)⟩ := by simp [cursorOf]; omega
      rw [e] at h
      by_cases h2 : (bufOf s c.buf).len < c.pos / 8 + 20
      · rw [ipv4Decode_short _ _ _ h2] at h
        exact ⟨rfl, h1, .inl ⟨(answer_inj h).symm, h2⟩⟩
      · rw [ipv4Decode_ok _ _ _ (by omega)] at h
        exact ⟨rfl, h1, .inr ⟨(answer_inj h).symm, by omega⟩⟩
    · rw [ipv4Decode_contract _ (cursorOf s c) h1] at h; simp at h

/-- How a call on a cursor is refused: out of contract, or above `MAX_LEN`. -/
theorem withCursor_refused {α : Type} {s : State} {c : CursorArg}
    {r : Cursor → Except ErrorKind (α × Cursor)} {v : α → Value} {x : Refusal}
    (h : withCursor s c (fun cur => s.finish (r cur) v) = .refused x) :
    x = .contractViolation ∨ (x = .inputTooLong ∧ ∃ b, s.maxLen = some b) := by
  cases hf : fits s c
  · simp [withCursor, hf] at h
    refine .inr ⟨h.symm, ?_⟩
    cases hm : s.maxLen with
    | some b => exact ⟨b, rfl⟩
    | none => obtain ⟨b, p⟩ := c; cases b <;> simp [fits, State.admits, hm] at hf
  · simp only [withCursor, hf, if_true] at h
    rcases finish_cases s (r (cursorOf s c)) v with ⟨a, d, _, e⟩ | ⟨_, e⟩ | ⟨_, e⟩
    · rw [e] at h; cases h
    · rw [e] at h; cases h
    · rw [e] at h; cases h; exact .inl rfl

theorem admits_iff {s : State} {n : Nat} : s.admits n = true ↔ ∀ b, s.maxLen = some b → n ≤ b := by
  cases h : s.maxLen <;> simp [State.admits, h]

/-- What a PARSE that goes on did (rule R130). -/
theorem parse_next {b : List Byte} {s t : State} (h : exec (.parse b) s = .next t) :
    t = s.setRecord (Memory.ofBytes b) (parseRecord s.roms (Memory.ofBytes b)) := by
  cases hh : s.admits b.length
  · simp [exec, execParse, hh] at h
  · simp only [exec, execParse_admitted b s hh] at h
    exact (Host.Outcome.next.inj h).symm

/-- The record of a transaction agrees with itself and its buffer. -/
theorem coherent_parseRecord (roms : Roms) (m : Memory) : (parseRecord roms m).coherent m.len = true := by
  by_cases h1 : m.len < 14
  · simp [parseRecord_short roms m h1, ethFailed, Record.coherent, ErrorKind.status]
  · by_cases h2 : m.len < 34
    · simp [parseRecord_ethOnly roms m (by omega) h2, ipv4Failed, Record.coherent, ErrorKind.status]; omega
    · simp [parseRecord_both roms m (by omega), bothDecoded, Record.coherent]; omega

/-! ### Buffers as sequences -/

/-- `MemReadBits` as the sum of rule R34. -/
theorem readBits_sum (m : Memory) (p w : Nat) :
    m.readBits p w = ∑ i ∈ Finset.range w, (m.bit (p + i)).toNat <<< (w - 1 - i) := by
  induction w with
  | zero => rfl
  | succ w ih =>
    rw [Finset.sum_range_succ, Memory.readBits, ih, Finset.mul_sum]
    congr 1
    · apply Finset.sum_congr rfl
      intro i hi
      rw [Finset.mem_range] at hi
      rw [show w + 1 - 1 - i = (w - 1 - i) + 1 by omega, Nat.shiftLeft_eq, Nat.shiftLeft_eq, pow_succ]; ring
    · simp

/-- A stretch of a buffer's bytes, byte by byte and read in one go. -/
theorem toBytes_split (m : Memory) (pre bs post : List Byte) (h : m.toBytes = pre ++ bs ++ post) :
    pre.length + bs.length + post.length = m.len ∧
    (∀ i (hi : i < bs.length), m.byteAt (pre.length + i) = bs[i]) ∧
    m.readBytes pre.length bs.length = bs ∧ m.readBytes (pre.length + bs.length) post.length = post := by
  have hl : m.len = pre.length + bs.length + post.length := by
    have : m.toBytes.length = m.len := by simp [Memory.toBytes]
    rw [h] at this; simp at this; omega
  have key : ∀ j, j < m.len → (pre ++ bs ++ post)[j]? = some (m.byteAt j) := by
    intro j hj
    rw [← h, Memory.toBytes, readBytes_getElem? _ _ _ _ hj]; simp
  refine ⟨hl.symm, ?_, ?_, ?_⟩
  · intro i hi
    have := key (pre.length + i) (by omega)
    rw [List.append_assoc, List.getElem?_append_right (by omega), List.getElem?_append_left (by omega)] at this
    simp [List.getElem?_eq_getElem hi] at this
    exact this.symm
  · apply List.ext_getElem?
    intro i
    by_cases hi : i < bs.length
    · rw [readBytes_getElem? _ _ _ _ hi, ← key _ (by omega), List.append_assoc,
        List.getElem?_append_right (by omega), List.getElem?_append_left (by omega)]
      simp
    · rw [List.getElem?_eq_none (by simp; omega), List.getElem?_eq_none (by omega)]
  · apply List.ext_getElem?
    intro i
    by_cases hi : i < post.length
    · rw [readBytes_getElem? _ _ _ _ hi, ← key _ (by omega), List.getElem?_append_right (by simp)]
      simp
    · rw [List.getElem?_eq_none (by simp; omega), List.getElem?_eq_none (by omega)]

/-- The view of a byte-aligned cursor is what stands behind it (rule R73). -/
theorem remaining_aligned (m : Memory) (a : Nat) :
    Cursor.remaining ⟨m, 8 * a⟩ = some (m.readBytes a (m.len - a)) := by
  simp [Cursor.remaining]

/-- An unaligned cursor has no view (rule R73). -/
theorem remaining_unaligned (c : Cursor) (h : c.pos % 8 ≠ 0) : c.remaining = none := by
  simp [Cursor.remaining, h]

/-- Reading on to the end of a buffer drops what comes before. -/
theorem readBytes_to_end (m : Memory) (a : Nat) : m.readBytes a (m.len - a) = m.toBytes.drop a := by
  apply List.ext_getElem?
  intro i
  rw [List.getElem?_drop, Memory.toBytes]
  by_cases hi : a + i < m.len
  · rw [readBytes_getElem? _ _ _ _ (by omega), readBytes_getElem? _ _ _ _ hi]; simp
  · rw [List.getElem?_eq_none (by simp; omega), List.getElem?_eq_none (by simp; omega)]

/-- The Ethernet header at an address is the one of its fourteen bytes (rule R51). -/
theorem ethHeaderAt_layout (rom : EtypeRom) (m : Memory) (a : Nat)
    (d0 d1 d2 d3 d4 d5 s0 s1 s2 s3 s4 s5 t1 t0 : Byte)
    (h : m.readBytes a 14 = [d0, d1, d2, d3, d4, d5, s0, s1, s2, s3, s4, s5, t1, t0]) :
    ethHeaderAt rom m a = Layout.ethHeader rom d0 d1 d2 d3 d4 d5 s0 s1 s2 s3 s4 s5 t1 t0 := by
  simp only [Memory.readBytes, List.cons.injEq, Nat.add_assoc] at h
  norm_num at h
  obtain ⟨g0, g1, g2, g3, g4, g5, g6, g7, g8, g9, g10, g11, g12, g13⟩ := h
  simp only [ethHeaderAt, macAt, wordAt, Layout.ethHeader, be16, Nat.add_assoc]
  norm_num
  simp only [g0, g1, g2, g3, g4, g5, g6, g7, g8, g9, g10, g11, g12, g13]
  simp

/-- The IPv4 header at an address is the one of its twenty bytes (rules R52, R54). -/
theorem ipv4HeaderAt_layout (rom : ProtoRom) (m : Memory) (a : Nat)
    (a0 a1 l1 l0 i1 i0 f1 f0 ttl pc c1 c0 s0 s1 s2 s3 d0 d1 d2 d3 : Byte)
    (h : m.readBytes a 20
      = [a0, a1, l1, l0, i1, i0, f1, f0, ttl, pc, c1, c0, s0, s1, s2, s3, d0, d1, d2, d3]) :
    ipv4HeaderAt rom m a
      = Layout.ipv4Header rom a0 a1 l1 l0 i1 i0 f1 f0 ttl pc c1 c0 s0 s1 s2 s3 d0 d1 d2 d3 := by
  simp only [Memory.readBytes, List.cons.injEq, Nat.add_assoc] at h
  norm_num at h
  obtain ⟨g0, g1, g2, g3, g4, g5, g6, g7, g8, g9, g10, g11, g12, g13, g14, g15, g16, g17, g18, g19⟩ := h
  have w : ∀ x y : Byte, word0Version (be16 x y) = x.extractLsb' 4 4 ∧
      word0HeaderLength (be16 x y) = x.extractLsb' 0 4 ∧
      word0Dscp (be16 x y) = y.extractLsb' 2 6 ∧ word0Ecn (be16 x y) = y.extractLsb' 0 2 := by
    intro x y
    have := x.isLt
    have := y.isLt
    refine ⟨?_, ?_, ?_, ?_⟩ <;> apply BitVec.eq_of_toNat_eq <;>
      simp only [word0Version, word0HeaderLength, word0Dscp, word0Ecn, BitVec.extractLsb'_toNat, be16_toNat,
        Nat.shiftRight_eq_div_pow] <;> omega
  have f : ∀ x y : Byte, fragDont (be16 x y) = x.getLsbD 6 ∧ fragMore (be16 x y) = x.getLsbD 5 := by
    intro x y
    simp only [fragDont, fragMore, be16, BitVec.getLsbD_append]
    simp
  simp only [ipv4HeaderAt, wordAt, ip4At, Layout.ipv4Header, fragDecode, fragOfFields, Nat.add_assoc,
    (w _ _).1, (w _ _).2.1, (w _ _).2.2.1, (w _ _).2.2.2, (f _ _).1, (f _ _).2]
  norm_num
  simp only [g0, g1, g2, g3, g4, g5, g6, g7, g8, g9, g10, g11, g12, g13, g14, g15, g16, g17, g18, g19]
  simp [be16, fragOffset]

/-! ### Words -/

/-- The slices of word 0 put together again (rule R53). -/
theorem word0Wire_slices (w : U16) :
    word0Wire (word0Version w) (word0HeaderLength w) (word0Dscp w) (word0Ecn w) = w := by
  apply BitVec.eq_of_toNat_eq
  rw [word0Wire_toNat]
  have := w.isLt
  simp only [word0Version, word0HeaderLength, word0Dscp, word0Ecn, BitVec.extractLsb'_toNat,
    Nat.shiftRight_eq_div_pow]
  omega

/-- The slices of a fragmentation word put together again (rule R54). -/
theorem fragWire_slices (w : U16) :
    fragWire (fragReserved w) (fragDont w) (fragMore w) (fragOffset w) = w := by
  apply BitVec.eq_of_toNat_eq
  rw [fragWire_toNat]
  have := w.isLt
  have e : ∀ n, (decide (n % 2 = 1)).toNat = n % 2 := by
    intro n; rcases Nat.mod_two_eq_zero_or_one n with h | h <;> simp [h]
  simp only [fragReserved, fragDont, fragMore, fragOffset, BitVec.getLsbD, Nat.testBit_eq_decide_div_mod_eq,
    e, BitVec.extractLsb'_toNat, Nat.shiftRight_eq_div_pow]
  omega

/-- A re-encoded word is at most 0x4000 (rule R92 corner cases). -/
theorem fragEncode_le (f : Fragmentation) : (fragEncode f).toNat ≤ 0x4000 := by
  cases f with
  | noFragmentation => decide
  | fragmented m o => rw [fragEncode_fragmented_toNat]; have := o.isLt; cases m <;> simp <;> omega

/-- The sum of the nine words as numbers is the 32-bit sum (rule R125). -/
theorem sum_toList (w : CsumWords) : (w.toList.map BitVec.toNat).sum = (csumSum w).toNat := by
  rw [csumSum_toNat]; simp [CsumWords.toList]; omega

/-- The validator's comparison as numbers (rule R124). -/
theorem csumValidate_iff (rom : ProtoRom) (h : IPV4Header) : csumValidate rom h = true ↔
    0xFFFF - (csumFold (csumSum (csumWords rom h))).toNat = h.headerChecksum.toNat := by
  unfold csumValidate
  rw [decide_eq_true_iff]
  unfold csumComputed
  rw [← BitVec.toNat_inj, BitVec.toNat_not]

/-- Bits that do not meet add up. -/
theorem toNat_xor_of_and_eq_zero (w p : U16) (h : w &&& p = 0#16) : (w ^^^ p).toNat = w.toNat + p.toNat := by
  rw [← BitVec.toNat_add_of_and_eq_zero h, BitVec.add_eq_or_of_and_eq_zero w p h]
  congr 1
  apply BitVec.eq_of_getLsbD_eq
  intro i hi
  have := congrArg (·.getLsbD i) h
  simp only [BitVec.getLsbD_and, BitVec.getLsbD_zero] at this
  rw [BitVec.getLsbD_xor, BitVec.getLsbD_or]
  generalize w.getLsbD i = a at *
  generalize p.getLsbD i = b at *
  revert a b; decide

/-- A flipped bit changes a word by plus or minus its weight (rule R127). -/
theorem toNat_flip_bit (w : U16) (k : Nat) (hk : k < 16) :
    (w ^^^ (1#16 <<< k)).toNat = w.toNat + 2 ^ k ∨ (w ^^^ (1#16 <<< k)).toNat + 2 ^ k = w.toNat := by
  have h1 : (1#16 <<< k).toNat = 2 ^ k := by interval_cases k <;> rfl
  have hb : ∀ i, (1#16 <<< k).getLsbD i = decide (i = k) := by
    intro i; rw [BitVec.getLsbD, h1, Nat.testBit_two_pow]; simp [eq_comm]
  have z : ∀ v : U16, v.getLsbD k = false → v &&& (1#16 <<< k) = 0#16 := by
    intro v hv
    apply BitVec.eq_of_getLsbD_eq
    intro i hi
    rw [BitVec.getLsbD_and, hb, BitVec.getLsbD_zero]
    by_cases e : i = k
    · rw [e, hv]; rfl
    · simp [e]
  cases h : w.getLsbD k
  · left; rw [toNat_xor_of_and_eq_zero _ _ (z w h), h1]
  · right
    have := toNat_xor_of_and_eq_zero (w ^^^ (1#16 <<< k)) (1#16 <<< k)
      (z _ (by rw [BitVec.getLsbD_xor, hb, h]; simp))
    rw [h1, BitVec.xor_assoc, BitVec.xor_self, BitVec.xor_zero] at this
    exact this.symm

end Sys2Proof.Machine
end

