-- ==== Sys2Proof/Tests/Slice0.lean ====
section
/-! SUPPORT. The model's own tests: the well-formedness smoke test, the decoding of every constructor from
a word written out from the spec's encodings, vectors of `95_test_vectors.md` (expected values from that
file), and a witness for every obligation that has hypotheses. -/

namespace Sys2Proof.Tests

open Sys2Proof.Machine

/-! ### Helpers -/

/-- What the next state holds as returned. -/
def ret : Host.Outcome State Fault Refusal → Option Returned
  | .next t => some t.returned
  | _ => none

/-- The result registers of the next state. -/
def res : Host.Outcome State Fault Refusal → Option Record
  | .next t => some t.result
  | _ => none

/-- Why an outcome is refused. -/
def refusal : Host.Outcome State Fault Refusal → Option Refusal
  | .refused r => some r
  | _ => none

/-- Why an outcome is a fault. -/
def faultOf : Host.Outcome State Fault Refusal → Option Fault
  | .fault f => some f
  | _ => none

/-- What an instruction returns from reset. -/
def run (i : Instr) : Option Returned := ret (exec i State.reset)

/-- A value returned. -/
def val (v : Value) : Option Returned := some (.value v)

/-- The buffer of vectors V1 to V12. -/
def v : List Byte := [0xA5, 0xC3, 0x7E]

/-- The value of a TAKE_BITS on that buffer, with the new offset. -/
def bitsOf (pos width : Nat) : Option (Nat × Nat) :=
  match run (.takeBits ⟨.given v, pos⟩ width) with
  | some (.valueAt (.bits _ x) c) => some (x.toNat, c.pos)
  | _ => none

/-- The value of a TAKE_BYTES on that buffer, with the new offset. -/
def bytesOf (pos n : Nat) : Option (List Byte × Nat) :=
  match run (.takeBytes ⟨.given v, pos⟩ n) with
  | some (.valueAt (.bytes bs) c) => some (bs, c.pos)
  | _ => none

/-- `E` of `95_test_vectors.md`. -/
def ethE : List Byte := [0xFF, 0xFF, 0xFF, 0xFF, 0xFF, 0xFF, 0x00, 0x11, 0x22, 0x33, 0x44, 0x55, 0x08, 0x00]

/-- `H`, the 20 bytes of S6. -/
def ipH : List Byte := [0x45, 0x00, 0x00, 0x28, 0x44, 0xFA, 0x40, 0x00, 0x2A, 0x06, 0xBC, 0x78,
  0xB6, 0x3D, 0xC8, 0x0B, 0xC0, 0xA8, 0x10, 0x6C]

/-- The record of `E` (V34). -/
def recE : EthernetHeader := ⟨⟨0xFF, 0xFF, 0xFF, 0xFF, 0xFF, 0xFF⟩, ⟨0x00, 0x11, 0x22, 0x33, 0x44, 0x55⟩, .ipv4⟩

/-- The record of S6. -/
def recH : IPV4Header := ⟨4, 5, 0, 0, 0x0028, 0x44FA, .noFragmentation, 0x2A, .tcp, 0xBC78,
  ⟨182, 61, 200, 11⟩, ⟨192, 168, 16, 108⟩⟩

/-- The wire fields of S6. -/
def wireH : Ipv4Wire := ⟨4, 5, 0, 0, 0x0028, 0x44FA, false, true, false, 0, 0x2A, 0x06, 0xBC78,
  ⟨182, 61, 200, 11⟩, ⟨192, 168, 16, 108⟩⟩

/-- The decoder with the default tables. -/
def dec (form : Form) (bytes : List Byte) : Option Instr := (decode Config.roms form bytes).toOption

/-- Well-formedness with the default tables. -/
def wf (i : Instr) : Bool := i.wellFormed Config.roms

/-! ### Well-formedness -/

theorem test_wf_offset_of_64_bits :
    wf (.ethDecode ⟨.held, 2 ^ 64 - 1⟩) = true ∧ wf (.ethDecode ⟨.held, 2 ^ 64⟩) = false := by decide
theorem test_wf_offset_within_given_buffer :
    wf (.takeBits ⟨.given [0xA5], 8⟩ 1) = true ∧ wf (.takeBits ⟨.given [0xA5], 9⟩ 1) = false
      ∧ wf (.ipv4Decode ⟨.given [], 1⟩) = false := by decide
theorem test_wf_width_of_8_bits :
    wf (.takeBits ⟨.held, 0⟩ 255) = true ∧ wf (.takeBits ⟨.held, 0⟩ 256) = false := by decide
theorem test_wf_count_of_64_bits :
    wf (.takeBytes ⟨.held, 0⟩ (2 ^ 64 - 1)) = true ∧ wf (.takeBytes ⟨.held, 0⟩ (2 ^ 64)) = false := by decide
theorem test_wf_default_rows_carry_no_key :
    wf (.etypeUnknown 0x0800) = false ∧ wf (.etypeUnknown 0x86DD) = false ∧ wf (.etypeUnknown 0x1234) = true
      ∧ wf (.protoUnknown 1) = false ∧ wf (.protoUnknown 6) = false ∧ wf (.protoUnknown 17) = false
      ∧ wf (.protoUnknown 0x99) = true := by decide

/-! ### Decoding of every constructor (rules R51 to R59; the call serialisation is log entry 4) -/

theorem test_decode_takeBits :
    dec .op [0b00000000, 0, 0, 0, 0, 0, 0, 0, 0, 3, 6, 0xA5, 0xC3] = some (.takeBits ⟨.given [0xA5, 0xC3], 3⟩ 7)
      := by decide
theorem test_decode_takeBytes :
    dec .op [0b00000001, 1, 0, 0, 0, 0, 0, 0, 0, 8, 0, 0, 0, 0, 0, 0, 1, 2] = some (.takeBytes ⟨.held, 8⟩ 258)
      := by decide
theorem test_decode_etypeLookup : dec .op [0b00000010, 0x86, 0xDD] = some (.etypeLookup 0x86DD) := by decide
theorem test_decode_protoLookup : dec .op [0b00000011, 0x99] = some (.protoLookup 0x99) := by decide
theorem test_decode_protoCode :
    dec .op [0b00000100, 1, 0] = some (.protoCode .tcp)
      ∧ dec .op [0b00000100, 3, 0x99] = some (.protoCode (.unknown 0x99)) := by decide
theorem test_decode_fragDecode : dec .op [0b00000101, 0x20, 0x02] = some (.fragDecode 0x2002) := by decide
theorem test_decode_fragEncode :
    dec .op [0b00000110, 0, 0, 0] = some (.fragEncode .noFragmentation)
      ∧ dec .op [0b00000110, 1, 0x20, 0x02] = some (.fragEncode (.fragmented true 2)) := by decide
theorem test_decode_ethDecode :
    dec .op [0b00000111, 0, 0, 0, 0, 0, 0, 0, 0, 8, 0xAA] = some (.ethDecode ⟨.given [0xAA], 8⟩) := by decide
theorem test_decode_ipv4Decode :
    dec .op [0b00001000, 1, 0, 0, 0, 0, 0, 0, 0, 112] = some (.ipv4Decode ⟨.held, 112⟩) := by decide
theorem test_decode_csumWords :
    dec .op [0b00001001, 0x45, 0x00, 0x00, 0x28, 0x44, 0xFA, 0, 0, 0, 0x2A, 1, 0, 0xBC, 0x78,
      182, 61, 200, 11, 192, 168, 16, 108] = some (.csumWords recH) := by decide
theorem test_decode_csumFold :
    dec .op [0b00001010, 0x00, 0x03, 0x43, 0x84] = some (.csumFold 0x34384) := by decide
theorem test_decode_csumValidate :
    dec .op [0b00001011, 0x45, 0x00, 0x00, 0x28, 0x44, 0xFA, 0, 0, 0, 0x2A, 1, 0, 0xBC, 0x78,
      182, 61, 200, 11, 192, 168, 16, 108] = some (.csumValidate recH) := by decide
theorem test_decode_parse : dec .op [0b00001100, 0xDE, 0xAD] = some (.parse [0xDE, 0xAD]) := by decide
theorem test_decode_reserved :
    dec .op [0b00001101] = some .opReserved13 ∧ dec .op [0b00001110] = some .opReserved14
      ∧ dec .op [0b00001111] = some .opReserved15 ∧ dec .op [0b00010000] = none := by decide
theorem test_decode_ethHdr :
    dec .ethHdr ethE = some (.ethHdr recE.destination recE.source 0x0800) := by decide
theorem test_decode_ipv4Hdr : dec .ipv4Hdr ipH = some (.ipv4Hdr wireH) := by decide
theorem test_decode_ipv4W0 : dec .word0 [0b01001111, 0b10111001] = some (.ipv4W0 4 15 46 1) := by decide
theorem test_decode_fragNofrag :
    dec .fragWord [0b11100000, 0b00000101] = some (.fragNofrag true true 5) := by decide
theorem test_decode_fragFragmented :
    dec .fragWord [0b10100000, 0b00000101] = some (.fragFragmented true true 5) := by decide
theorem test_decode_fragEnc :
    dec .fragEncWord [0b01000000, 0] = some .fragEncNofrag
      ∧ dec .fragEncWord [0b00100000, 0b00000010] = some (.fragEncFragmented true 2)
      ∧ dec .fragEncWord [0b01100000, 0b00000010] = none := by decide
theorem test_decode_csumW4 : dec .csumW4 [0x2A, 0x06] = some (.csumW4 0x2A 0x06) := by decide
theorem test_decode_csumW5ToW8 : dec .csumHalf [0xB6, 0x3D] = some (.csumW5ToW8 0xB6 0x3D) := by decide
theorem test_decode_etype_rows :
    dec .etypeCode [0x08, 0x00] = some .etypeIpv4 ∧ dec .etypeCode [0x86, 0xDD] = some .etypeIpv6
      ∧ dec .etypeCode [0x12, 0x34] = some (.etypeUnknown 0x1234)
      ∧ dec .etypeCode [0x00, 0x08] = some (.etypeUnknown 0x0008) := by decide
theorem test_decode_proto_rows :
    dec .protoCode [0x01] = some .protoIcmp ∧ dec .protoCode [0x06] = some .protoTcp
      ∧ dec .protoCode [0x11] = some .protoUdp ∧ dec .protoCode [0x99] = some (.protoUnknown 0x99) := by decide
theorem test_decode_truncated :
    dec .ethHdr (ethE.take 13) = none ∧ dec .ipv4Hdr (ipH.take 19) = none ∧ dec .op [] = none := by decide

theorem test_table_words :
    decodeTableWord 8 12 = some (.parse callPadding) ∧ decodeTableWord 8 0x99 = some (.protoUnknown 0x99)
      ∧ decodeTableWord 16 0x86DD = some .etypeIpv6
      ∧ decodeTableWord 16 0x2002 = some (.fragFragmented false true 2)
      ∧ decodeTableWord 16 0x4000 = some (.fragNofrag false false 0) := by decide
theorem test_table_word_runs :
    ret (step (State.reset.withFetchWord 16 0x2002)) = val (.fragmentation (.fragmented true 2))
      ∧ refusal (step (State.reset.withFetchWord 8 13)) = some (.noSuchOperation 13) := by decide

/-! ### Vectors -/

/-- V1 to V6, and the two takes after V12. -/
theorem test_takeBits_values :
    bitsOf 0 1 = some (1, 1) ∧ bitsOf 0 4 = some (10, 4) ∧ bitsOf 4 4 = some (5, 8)
      ∧ bitsOf 0 16 = some (0xA5C3, 16) ∧ bitsOf 3 7 = some (23, 10) ∧ bitsOf 1 16 = some (0x4B86, 17)
      ∧ bitsOf 8 16 = some (0xC37E, 24) ∧ bitsOf 23 1 = some (0, 24) ∧ bitsOf 5 13 = some (5901, 18) := by
  decide
/-- V7 to V9. -/
theorem test_takeBits_stops :
    run (.takeBits ⟨.given v, 24⟩ 1) = some (.raised .insufficientInput)
      ∧ run (.takeBits ⟨.given v, 20⟩ 5) = some (.raised .insufficientInput)
      ∧ refusal (exec (.takeBits ⟨.given v, 0⟩ 0) .reset) = some .contractViolation
      ∧ refusal (exec (.takeBits ⟨.given v, 0⟩ 17) .reset) = some .contractViolation
      ∧ refusal (exec (.takeBits ⟨.given v, 24⟩ 0) .reset) = some .contractViolation := by decide
/-- V10 and V11. -/
theorem test_takeBytes_values :
    bytesOf 0 3 = some (v, 24) ∧ bytesOf 8 2 = some ([0xC3, 0x7E], 24) ∧ bytesOf 16 1 = some ([0x7E], 24)
      ∧ bytesOf 24 0 = some ([], 24) ∧ bytesOf 0 0 = some ([], 0) := by decide
/-- V11 and V12. -/
theorem test_takeBytes_stops :
    run (.takeBytes ⟨.given v, 8⟩ 3) = some (.raised .insufficientInput)
      ∧ run (.takeBytes ⟨.given v, 24⟩ 1) = some (.raised .insufficientInput)
      ∧ refusal (exec (.takeBytes ⟨.given v, 4⟩ 9) .reset) = some .contractViolation := by decide
/-- V13 to V16. -/
theorem test_etypeLookup :
    run (.etypeLookup 0x0800) = val (.payloadKind .ipv4) ∧ run (.etypeLookup 0x86DD) = val (.payloadKind .ipv6)
      ∧ run (.etypeLookup 0x1234) = val (.payloadKind (.unknown 0x1234))
      ∧ run (.etypeLookup 0xDD86) = val (.payloadKind (.unknown 0xDD86)) := by decide
/-- V17 and V18. -/
theorem test_protoLookup :
    run (.protoLookup 0x06) = val (.protocolKind .tcp) ∧ run (.protoLookup 0x01) = val (.protocolKind .icmp)
      ∧ run (.protoLookup 0x11) = val (.protocolKind .udp)
      ∧ run (.protoLookup 0x99) = val (.protocolKind (.unknown 0x99)) := by decide
/-- V19 and V20. -/
theorem test_protoCode :
    run (.protoCode .tcp) = val (.code8 0x06) ∧ run (.protoCode .icmp) = val (.code8 0x01)
      ∧ run (.protoCode .udp) = val (.code8 0x11) ∧ run (.protoCode (.unknown 0x06)) = val (.code8 0x06) := by
  decide
/-- V22, V24, V26, V29, V31. -/
theorem test_fragDecode :
    run (.fragDecode 0x8000) = val (.fragmentation (.fragmented false 0))
      ∧ run (.fragDecode 0x2002) = val (.fragmentation (.fragmented true 2))
      ∧ run (.fragDecode 0x7FFF) = val (.fragmentation .noFragmentation)
      ∧ run (.fragDecode 0x1FFF) = val (.fragmentation (.fragmented false 8191))
      ∧ run (.fragDecode 0xA005) = val (.fragmentation (.fragmented true 5)) := by decide
/-- V23, V30, V33. -/
theorem test_fragEncode :
    run (.fragEncode .noFragmentation) = val (.word16 0x4000)
      ∧ run (.fragEncode (.fragmented true 8191)) = val (.word16 0x3FFF)
      ∧ run (.fragEncode (.fragmented false 185)) = val (.word16 0x00B9) := by decide
/-- V34 and V36. -/
theorem test_ethDecode :
    run (.ethDecode ⟨.given ethE, 0⟩) = some (.valueAt (.ethHeader recE) ⟨Memory.ofBytes ethE, 112⟩)
      ∧ run (.ethDecode ⟨.given (ethE.take 13), 0⟩) = some (.raised .insufficientInput) := by decide
/-- "`ETH_DECODE @4` on any buffer gives `ContractViolation`". -/
theorem test_ethDecode_unaligned :
    refusal (exec (.ethDecode ⟨.given [], 4⟩) .reset) = some .contractViolation := by decide
/-- S6 and V42. -/
theorem test_ipv4Decode :
    run (.ipv4Decode ⟨.given ipH, 0⟩) = some (.valueAt (.ipv4Header recH) ⟨Memory.ofBytes ipH, 160⟩)
      ∧ run (.ipv4Decode ⟨.given (ipH.take 19), 0⟩) = some (.raised .insufficientInput) := by decide
/-- V41: the start of an IPv6 packet decodes. -/
theorem test_ipv4Decode_enforces_nothing :
    run (.ipv4Decode ⟨.given [0x60, 0, 0, 0, 0, 0x14, 6, 0x40, 0x20, 1, 0x0D, 0xB8, 0, 0, 0, 0, 0, 0, 0, 0], 0⟩)
      = some (.valueAt (.ipv4Header ⟨6, 0, 0, 0, 0, 0x14, .fragmented false 1600, 0x20, .icmp, 0x0DB8,
          ⟨0, 0, 0, 0⟩, ⟨0, 0, 0, 0⟩⟩)
        ⟨Memory.ofBytes [0x60, 0, 0, 0, 0, 0x14, 6, 0x40, 0x20, 1, 0x0D, 0xB8, 0, 0, 0, 0, 0, 0, 0, 0], 160⟩) := by
  decide
/-- V44. -/
theorem test_csumWords :
    run (.csumWords recH) = val (.words ⟨0x4500, 0x0028, 0x44FA, 0x4000, 0x2A06, 0xB63D, 0xC80B, 0xC0A8, 0x106C⟩)
      := by decide
/-- V50. -/
theorem test_csumFold :
    run (.csumFold 0x0) = val (.word16 0) ∧ run (.csumFold 0xFFFF) = val (.word16 0xFFFF)
      ∧ run (.csumFold 0x1FFFE) = val (.word16 0xFFFF) ∧ run (.csumFold 0x1FFFF) = val (.word16 0x0001)
      ∧ run (.csumFold 0x83FF8) = val (.word16 0x4000) ∧ run (.csumFold 0xFFFFFFFF) = val (.word16 0xFFFF) := by
  decide
/-- S6 and S7. -/
theorem test_csumValidate :
    run (.csumValidate recH) = val (.flag true)
      ∧ run (.csumValidate { recH with identification := 0x49FA }) = val (.flag false) := by decide
/-- V49. -/
theorem test_csumValidate_zero_patterns :
    run (.csumValidate ⟨15, 15, 63, 3, 0, 0, .fragmented false 0, 0, .unknown 0, 0, ⟨0, 0, 0, 0⟩, ⟨0, 0, 0, 0⟩⟩)
      = val (.flag true)
    ∧ run (.csumValidate ⟨15, 15, 63, 3, 0, 0, .fragmented false 0, 0, .unknown 0, 0xFFFF, ⟨0, 0, 0, 0⟩,
        ⟨0, 0, 0, 0⟩⟩) = val (.flag false) := by decide
/-- P1. -/
theorem test_parse_both :
    res (exec (.parse (ethE ++ ipH ++ [0xDE, 0xAD])) .reset) = some ⟨272, some recE, true, some recH, true,
      some true, 34, ⟨.ok, .noStage⟩⟩ := by decide
/-- V53 and V56. -/
theorem test_parse_stops :
    res (exec (.parse []) .reset) = some ⟨0, none, false, none, false, none, 0, ⟨.insufficientInput, .ethernet⟩⟩
      ∧ res (exec (.parse (ethE ++ ipH.take 19)) .reset)
        = some ⟨112, some recE, true, none, false, none, 14, ⟨.insufficientInput, .ipv4⟩⟩ := by decide
theorem test_reserved_refused :
    refusal (exec .opReserved13 .reset) = some (.noSuchOperation 13)
      ∧ refusal (exec .opReserved14 .reset) = some (.noSuchOperation 14)
      ∧ refusal (exec .opReserved15 .reset) = some (.noSuchOperation 15) := by decide
/-- V34 and S6, as wire rows, and word 0 of V39. -/
theorem test_header_rows :
    run (.ethHdr recE.destination recE.source 0x0800) = val (.ethHeader recE)
      ∧ run (.ipv4Hdr wireH) = val (.ipv4Header recH)
      ∧ run (.ipv4W0 4 15 46 1) = val (.word0 ⟨4, 15, 46, 1⟩) := by decide
/-- V25, V31, V23, V24. -/
theorem test_frag_rows :
    run (.fragNofrag false true 2) = val (.fragmentation .noFragmentation)
      ∧ run (.fragFragmented true true 5) = val (.fragmentation (.fragmented true 5))
      ∧ run .fragEncNofrag = val (.word16 0x4000)
      ∧ run (.fragEncFragmented true 2) = val (.word16 0x2002) := by decide
/-- Words of V44. -/
theorem test_csum_rows :
    run (.csumW4 0x2A 0x06) = val (.word16 0x2A06) ∧ run (.csumW5ToW8 0xB6 0x3D) = val (.word16 0xB63D) := by
  decide
theorem test_table_rows :
    run .etypeIpv4 = val (.payloadKind .ipv4) ∧ run .etypeIpv6 = val (.payloadKind .ipv6)
      ∧ run (.etypeUnknown 0x8100) = val (.payloadKind (.unknown 0x8100))
      ∧ run .protoIcmp = val (.protocolKind .icmp) ∧ run .protoTcp = val (.protocolKind .tcp)
      ∧ run .protoUdp = val (.protocolKind .udp)
      ∧ run (.protoUnknown 0x29) = val (.protocolKind (.unknown 0x29)) := by decide

/-! ### Witnesses: for every obligation with hypotheses, a state and operands that meet them -/

/-- Reset with one act of the host's. -/
def ask (r : Request) : State := { State.reset with pending := [r] }

/-- Reset with an Ethernet header decoded and nothing behind it (V55), asked for a result. -/
def askAfterE (reg : ResultReg) : State :=
  { State.reset with
    buf := Memory.ofBytes ethE, result := parseRecord Config.roms (Memory.ofBytes ethE), pending := [.read reg] }

/-- A state after P1's transaction, asked for a result. -/
def askAfterP1 (reg : ResultReg) : State :=
  { State.reset with
    buf := Memory.ofBytes (ethE ++ ipH), result := parseRecord Config.roms (Memory.ofBytes (ethE ++ ipH)),
    pending := [.read reg] }

theorem askAfterP1_inv (reg : ResultReg) : (askAfterP1 reg).Inv :=
  ⟨wf_ofBytes (ethE ++ ipH), show Config.roms.wf = true by decide, Or.inr (by simp only [askAfterP1]; rfl)⟩

theorem test_witness_EveryStepKeepsTheInvariant :
    ∃ t, (ask (.call .op (12 :: ethE))).Inv ∧ step (ask (.call .op (12 :: ethE))) = .next t :=
  ⟨_, ⟨by decide, by decide, .inl rfl⟩, rfl⟩
theorem test_witness_RunsKeepRegistersCoherent :
    ∃ t, (ask (.call .op (12 :: ethE))).Inv ∧ Reaches (ask (.call .op (12 :: ethE))) t
      ∧ t.result.ethPresent = true :=
  ⟨_, ⟨by decide, by decide, .inl rfl⟩, .next (.here _) rfl, by decide⟩
theorem test_witness_RunsNeverWriteTheTables :
    ∃ t, Reaches (ask (.call .op (12 :: ethE))) t ∧ t.pending = [] := ⟨_, .next (.here _) rfl, rfl⟩
theorem test_witness_StepExecutesTheDecodedCall :
    (ask (.call .op [2, 0x12, 0x34])).pending = .call .op [2, 0x12, 0x34] :: []
      ∧ decode Config.roms .op [2, 0x12, 0x34] = .ok (.etypeLookup 0x1234)
      ∧ (ask (.call .op [16])).pending = .call .op [16] :: []
      ∧ decode Config.roms .op [16] = .error (.badOpByte 16) ∧ State.reset.pending = [] := by decide
theorem test_witness_StepExecutesTheEncodedInstruction :
    State.reset.roms.wf = true
      ∧ (Instr.takeBits ⟨.given v, 24⟩ 16).wellFormed State.reset.roms = true := by decide
theorem test_witness_ReadingAnAbsentRecordFaults :
    ((ask (.read .eth)).result.ethPresent = false ∧ (ask (.read .ip4)).result.ip4Present = false)
      ∧ ((askAfterP1 .eth).pending = [.read .eth] ∧ (askAfterP1 .eth).result.ethPresent = true
        ∧ (askAfterP1 .eth).result.eth = some recE)
      ∧ ((askAfterP1 .ip4).result.ip4Present = true ∧ (askAfterP1 .ip4).result.ip4 = some recH)
      ∧ ((askAfterP1 .csumOk).result.ip4Present = true ∧ (askAfterP1 .csumOk).result.csumOk = some true) := by
  decide
/-- The reads at the clauses of that statement. -/
theorem test_reads :
    faultOf (step (ask (.read .eth))) = some .ethAbsent ∧ faultOf (step (ask (.read .ip4))) = some .ip4Absent
      ∧ faultOf (step (ask (.read .csumOk))) = some .csumOkAbsent
      ∧ ret (step (askAfterE .eth)) = val (.ethHeader recE)
      ∧ faultOf (step (askAfterE .csumOk)) = some .csumOkAbsent
      ∧ ret (step (askAfterP1 .csumOk)) = val (.flag true) := by decide
theorem test_witness_OtherResultsCanAlwaysBeRead :
    (askAfterE .ethPresent).pending = [.read .ethPresent] ∧ (askAfterE .remainder).pending = [.read .remainder]
      ∧ (askAfterE .ip4Present).pending = [.read .ip4Present] ∧ (askAfterE .remStart).pending = [.read .remStart]
      ∧ (askAfterE .status).pending = [.read .status] ∧ (askAfterE .pos).pending = [.read .pos]
      ∧ ret (step (askAfterE .remStart)) = val (.offset 14)
      ∧ ret (step (askAfterE .remainder)) = val (.bytes []) := by decide
theorem test_witness_PresentRecordsCanBeRead :
    (askAfterP1 .eth).Inv ∧ (askAfterP1 .eth).pending = .read .eth :: []
      ∧ (askAfterP1 .eth).result.ethPresent = true
      ∧ (askAfterP1 .ip4).Inv ∧ (askAfterP1 .ip4).pending = .read .ip4 :: []
      ∧ (askAfterP1 .ip4).result.ip4Present = true
      ∧ (askAfterP1 .csumOk).Inv ∧ (askAfterP1 .csumOk).pending = .read .csumOk :: []
      ∧ (askAfterP1 .csumOk).result.ip4Present = true :=
  ⟨askAfterP1_inv _, rfl, by decide, askAfterP1_inv _, rfl, by decide, askAfterP1_inv _, rfl, by decide⟩
theorem test_witness_DecodeUndoesEncode :
    Config.roms.wf = true ∧ wf (.takeBytes ⟨.given v, 24⟩ (2 ^ 64 - 1)) = true
      ∧ wf (.takeBits ⟨.held, 2 ^ 64 - 1⟩ 255) = true ∧ wf (.protoUnknown 0xFF) = true := by decide
theorem test_witness_WireFormsKeepEveryBit :
    ethE.length = 14 ∧ (dec .ethHdr ethE).isSome ∧ ipH.length = 20 ∧ (dec .ipv4Hdr ipH).isSome
      ∧ (dec .protoCode [0xFF]).isSome ∧ (dec .word0 [0xFF, 0xFF]).isSome ∧ (dec .fragWord [0xFF, 0xFF]).isSome
      ∧ (dec .fragEncWord [0x3F, 0xFF]).isSome ∧ (dec .csumW4 [0xFF, 0xFF]).isSome
      ∧ (dec .csumHalf [0xFF, 0xFF]).isSome ∧ (dec .etypeCode [0xFF, 0xFF]).isSome := by decide
theorem test_witness_ReservedIndicesAreRefused : 15 < (16 : Byte).toNat ∧ 15 < (255 : Byte).toNat := by decide
theorem test_witness_EthWireFormAgreesWithDecoder :
    ethE.length = 14 ∧ fits State.reset ⟨.given (ethE ++ []), 0⟩ = true := by decide
theorem test_witness_Ipv4WireFormAgreesWithDecoder :
    ipH.length = 20 ∧ fits State.reset ⟨.given (ipH ++ [0x94]), 0⟩ = true := by decide
theorem test_witness_BufferIsTheHostsSequence :
    (Memory.ofBytes [0, 0xA5, 0]).wf = true
      ∧ (Memory.ofBytes [0, 0xA5, 0]).toBytes = (⟨3, [(1, 0xA5)]⟩ : Memory).toBytes
      ∧ (⟨3, [(1, 0xA5)]⟩ : Memory).wf = true ∧ (⟨3, [(0, 0), (1, 0xA5)]⟩ : Memory).wf = false := by decide
theorem test_witness_TakeBitsReadsBigEndian :
    fits State.reset ⟨.given v, 8⟩ = true ∧ 8 + 16 ≤ 8 * (bufOf State.reset (.given v)).len
      ∧ fits State.reset ⟨.given v, 23⟩ = true ∧ 23 + 1 ≤ 8 * (bufOf State.reset (.given v)).len := by decide
theorem test_witness_TakeBitsSplits :
    exec (.takeBits ⟨.given v, 3⟩ 5) .reset
        = .next (State.reset.setReturned (.valueAt (.bits 5 5) ⟨Memory.ofBytes v, 8⟩))
      ∧ exec (.takeBits ⟨.given v, 3 + 5⟩ 6) .reset
        = .next (State.reset.setReturned (.valueAt (.bits 6 48) ⟨Memory.ofBytes v, 14⟩)) := ⟨rfl, rfl⟩
theorem test_witness_TakeBytesIsVerbatim :
    fits State.reset ⟨.given v, 8⟩ = true
      ∧ (bufOf State.reset (.given v)).toBytes = [0xA5] ++ [0xC3, 0x7E] ++ [] ∧ 8 = 8 * [(0xA5 : Byte)].length
      ∧ (bufOf State.reset (.given v)).toBytes = v ++ [] ++ [] := by decide
theorem test_witness_TakeBytesAgreesWithTakeBits :
    exec (.takeBytes ⟨.given v, 8⟩ 2) .reset
      = .next (State.reset.setReturned (.valueAt (.bytes [0xC3, 0x7E]) ⟨Memory.ofBytes v, 24⟩)) := rfl
/-- The fields of an Ethernet header, and a sequence that is one bit short. -/
theorem test_witness_SequencesOfTakesCompose :
    fits State.reset ⟨.given ethE, 0⟩ = true ∧ 0 ≤ 8 * (bufOf State.reset (.given ethE)).len
      ∧ (∀ width, Take.bits width ∈ [Take.bytes 6, .bytes 6, .bits 16] → 1 ≤ width ∧ width ≤ 16)
      ∧ runTakes .reset [.bytes 6, .bytes 6, .bits 16] ⟨.given ethE, 0⟩ = some ⟨.given ethE, 112⟩
      ∧ runTakes .reset [.bits 16, .bits 9] ⟨.given v, 0⟩ = none
      ∧ runTakes .reset [.bits 4, .bytes 1] ⟨.given v, 0⟩ = none :=
  ⟨by decide, by decide, by simp, by decide, by decide, by decide⟩
/-- One bit, one byte short, and just enough. -/
theorem test_witness_ShortInputRaisesAndConsumesNothing :
    fits State.reset ⟨.given v, 8⟩ = true ∧ 8 % 8 = 0
      ∧ run (.takeBits ⟨.given v, 9⟩ 16) = some (.raised .insufficientInput)
      ∧ run (.takeBytes ⟨.given v, 8⟩ 3) = some (.raised .insufficientInput)
      ∧ run (.ethDecode ⟨.given ethE, 8⟩) = some (.raised .insufficientInput)
      ∧ run (.ipv4Decode ⟨.given ipH, 8⟩) = some (.raised .insufficientInput) := by decide
theorem test_witness_CursorMovesByWhatIsRead :
    exec (.ethDecode ⟨.given ethE, 0⟩) .reset
      = .next (State.reset.setReturned (.valueAt (.ethHeader recE) ⟨Memory.ofBytes ethE, 112⟩)) := rfl
theorem test_witness_EthDecodeReadsTheLayout :
    fits State.reset ⟨.given (0xAA :: ethE ++ [0xBB]), 8⟩ = true ∧ 8 = 8 * [(0xAA : Byte)].length
      ∧ (bufOf State.reset (.given (0xAA :: ethE ++ [0xBB]))).toBytes = [0xAA] ++ ethE ++ [0xBB] := by decide
theorem test_witness_Ipv4DecodeReadsTheLayout :
    fits State.reset ⟨.given (ethE ++ ipH), 112⟩ = true ∧ 112 = 8 * ethE.length
      ∧ (bufOf State.reset (.given (ethE ++ ipH))).toBytes = ethE ++ ipH ++ [] := by decide
theorem test_witness_EtypeLookupIsTotal :
    (0x0800 : U16) = State.reset.roms.etype.ipv4
      ∧ ((0x86DD : U16) ≠ State.reset.roms.etype.ipv4 ∧ (0x86DD : U16) = State.reset.roms.etype.ipv6)
      ∧ ((0xFFFF : U16) ≠ State.reset.roms.etype.ipv4 ∧ (0xFFFF : U16) ≠ State.reset.roms.etype.ipv6) := by decide
theorem test_witness_ProtoLookupIsTotal :
    (1 : Byte) = State.reset.roms.proto.icmp
      ∧ ((6 : Byte) ≠ State.reset.roms.proto.icmp ∧ (6 : Byte) = State.reset.roms.proto.tcp)
      ∧ ((17 : Byte) ≠ State.reset.roms.proto.icmp ∧ (17 : Byte) ≠ State.reset.roms.proto.tcp
        ∧ (17 : Byte) = State.reset.roms.proto.udp)
      ∧ ((0 : Byte) ≠ State.reset.roms.proto.icmp ∧ (0 : Byte) ≠ State.reset.roms.proto.tcp
        ∧ (0 : Byte) ≠ State.reset.roms.proto.udp) := by decide
theorem test_witness_TableRowsReturnKinds :
    (Instr.etypeUnknown 0x0801).wellFormed State.reset.roms = true
      ∧ (Instr.protoUnknown 0).wellFormed State.reset.roms = true := by decide
theorem test_witness_CodeWordsAgreeWithLookups : State.reset.roms.wf = true := by decide
/-- Words of each clause, at the boundaries 0x3FFF, 0x4000, 0x8000 and 0xFFFF. -/
theorem test_witness_FragmentationWordsThatSurvive :
    (0x3FFF : U16).toNat ≤ 0x3FFF ∧ (0x4000 : U16).getLsbD 14 = true ∧ (0xFFFF : U16).getLsbD 14 = true
      ∧ (0x8000 : U16).getLsbD 14 = false ∧ (0x8000 : U16).getLsbD 15 = true := by decide
/-- Sums of each clause: no pass, one pass, two passes. -/
theorem test_witness_CsumFoldRepeatsUntilNoCarry :
    (0xFFFF : U32).toNat ≤ 0xFFFF ∧ (0xFFFF < (0x10000 : U32).toNat ∧ onePass (0x10000 : U32).toNat ≤ 0xFFFF)
      ∧ (0xFFFF < (0x1FFFF : U32).toNat ∧ 0xFFFF < onePass (0x1FFFF : U32).toNat) := by decide

/-- The header of V49. -/
def h49 : IPV4Header :=
  ⟨15, 15, 63, 3, 0, 0, .fragmented false 0, 0, .unknown 0, 0xFFFF, ⟨0, 0, 0, 0⟩, ⟨0, 0, 0, 0⟩⟩

theorem test_witness_ValidityIsPatternEquality :
    exec (.csumWords h49) .reset = .next (State.reset.setReturned (.value (.words ⟨0xFFFF, 0, 0, 0, 0, 0, 0, 0, 0⟩)))
      ∧ ((⟨0xFFFF, 0, 0, 0, 0, 0, 0, 0, 0⟩ : CsumWords).toList.map BitVec.toNat).sum = 0xFFFF := ⟨rfl, rfl⟩

/-- The words of V44. -/
def words44 : CsumWords := ⟨0x4500, 0x0028, 0x44FA, 0x4000, 0x2A06, 0xB63D, 0xC80B, 0xC0A8, 0x106C⟩

/-- S6 with the lowest bit of its last address byte flipped (V51), with the highest bit of word 0, and with
the highest bit of W3, which no header has (its word is 0xC000). -/
theorem test_witness_AnySingleBitFlipIsDetected :
    exec (.csumWords recH) .reset = .next (State.reset.setReturned (.value (.words words44)))
      ∧ exec (.csumWords { recH with destination := ⟨192, 168, 16, 109⟩ }) .reset
        = .next (State.reset.setReturned (.value (.words (words44.flip 8 0))))
      ∧ exec (.csumWords { recH with version := 12 }) .reset
        = .next (State.reset.setReturned (.value (.words (words44.flip 0 15))))
      ∧ (words44.flip 3 15).w3 = 0xC000 ∧ (0xBC79 : U16) ≠ recH.headerChecksum
      ∧ exec (.csumValidate recH) .reset = .next (State.reset.setReturned (.value (.flag true))) :=
  ⟨rfl, rfl, rfl, by decide, by decide, rfl⟩

/-- The wire fields of V46, whose fragmentation word is 0x6002. -/
def wire46 : Ipv4Wire := ⟨4, 5, 0, 0, 0x14, 1, false, true, true, 2, 0x40, 0x11, 0x96D2,
  ⟨0xC0, 0, 2, 1⟩, ⟨0xC0, 0, 2, 2⟩⟩

/-- V46. -/
theorem test_witness_WireChecksumOfNonCanonicalHeaderIsInvalid :
    ∃ h w folded, exec (.ipv4Hdr wire46) .reset = .next (State.reset.setReturned (.value (.ipv4Header h)))
      ∧ exec (.csumWords h) .reset = .next (State.reset.setReturned (.value (.words w)))
      ∧ fragWire wire46.reserved wire46.dontFragment wire46.moreFragments wire46.offset ≠ w.w3
      ∧ exec (.csumFold (BitVec.ofNat 32 ((w.toList.map BitVec.toNat).sum - w.w3.toNat
          + (fragWire wire46.reserved wire46.dontFragment wire46.moreFragments wire46.offset).toNat))) .reset
        = .next (State.reset.setReturned (.value (.word16 folded)))
      ∧ 0xFFFF - folded.toNat = wire46.headerChecksum.toNat :=
  ⟨_, _, 0x692D, rfl, rfl, by decide, rfl, by decide⟩
theorem test_witness_ParseOfFewerThan14Bytes :
    State.reset.admits (ethE.take 13).length = true ∧ (ethE.take 13).length < 14 := by decide
theorem test_witness_ParseOf14To33Bytes :
    ethE ++ ipH.take 19 = [0xFF, 0xFF, 0xFF, 0xFF, 0xFF, 0xFF, 0x00, 0x11, 0x22, 0x33, 0x44, 0x55, 0x08, 0x00]
        ++ ipH.take 19
      ∧ State.reset.admits (ethE ++ ipH.take 19).length = true ∧ (ipH.take 19).length < 20 := by decide
theorem test_witness_ParseOf34BytesOrMore :
    ethE ++ ipH = [0xFF, 0xFF, 0xFF, 0xFF, 0xFF, 0xFF, 0x00, 0x11, 0x22, 0x33, 0x44, 0x55, 0x08, 0x00]
        ++ [0x45, 0x00, 0x00, 0x28, 0x44, 0xFA, 0x40, 0x00, 0x2A, 0x06, 0xBC, 0x78, 0xB6, 0x3D, 0xC8, 0x0B,
          0xC0, 0xA8, 0x10, 0x6C] ++ []
      ∧ State.reset.admits (ethE ++ ipH).length = true := by decide

/-- A machine that holds at most 34 bytes. -/
def bounded : State := { State.reset with maxLen := some 34 }

theorem test_witness_ParseGivesARecordOnEveryInput :
    bounded.maxLen = some 34 ∧ (ethE ++ ipH).length ≤ 34 ∧ 34 < (ethE ++ ipH ++ [0]).length
      ∧ refusal (exec (.parse (ethE ++ ipH ++ [0])) bounded) = some .inputTooLong := by decide
theorem test_witness_ParseReadsOnly34Bytes :
    ∃ t t', (ethE ++ ipH).length = 34 ∧ exec (.parse (ethE ++ ipH ++ [1])) .reset = .next t
      ∧ exec (.parse (ethE ++ ipH ++ [])) .reset = .next t' := ⟨_, _, rfl, rfl, rfl⟩
theorem test_witness_ParseForgetsEarlierTransactions :
    ∃ t t', (askAfterP1 .eth).roms = State.reset.roms ∧ exec (.parse ethE) (askAfterP1 .eth) = .next t
      ∧ exec (.parse ethE) .reset = .next t' := ⟨_, _, rfl, rfl, rfl⟩
/-- The Ethernet bytes of V57 and of V58. -/
theorem test_witness_Ipv4StageIsNotGated :
    ∃ t t', [0x33, 0x33, 0, 0, 0, 1, 2, 0, 0, 0, 0, 2, 0x86, (0xDD : Byte)].length = 14 ∧ ethE.length = 14
      ∧ exec (.parse ([0x33, 0x33, 0, 0, 0, 1, 2, 0, 0, 0, 0, 2, 0x86, 0xDD] ++ ipH)) .reset = .next t
      ∧ exec (.parse (ethE ++ ipH)) .reset = .next t' ∧ 14 + ipH.length ≥ 34 := ⟨_, _, rfl, rfl, rfl, rfl, by decide⟩
theorem test_witness_OnlyParseWritesRegisters :
    (∃ t, exec (.parse ethE) .reset = .next t) ∧ ∃ t, exec (.takeBits ⟨.given v, 0⟩ 16) .reset = .next t :=
  ⟨⟨_, rfl⟩, ⟨_, rfl⟩⟩
theorem test_witness_InstructionsStopOnlyAsTheSpecNames :
    exec (.takeBits ⟨.given v, 0⟩ 17) .reset = .refused .contractViolation
      ∧ exec (.takeBytes ⟨.given (List.replicate 35 1), 0⟩ 1) bounded = .refused .inputTooLong
      ∧ exec .opReserved15 .reset = .refused (.noSuchOperation 15) := ⟨rfl, rfl, rfl⟩

/-- V35: the view behind a decoded header, and a cursor that has none. -/
theorem test_witness_RemainingViewExistsExactlyWhenAligned :
    (⟨Memory.ofBytes (ethE ++ [0xAA, 0xBB]), 112⟩ : Cursor).remaining = some [0xAA, 0xBB]
      ∧ (⟨Memory.ofBytes ethE, 4⟩ : Cursor).remaining = none
      ∧ exec (.ethDecode ⟨.given (ethE ++ [0xAA, 0xBB]), 0⟩) .reset
        = .next (State.reset.setReturned (.valueAt (.ethHeader recE) ⟨Memory.ofBytes (ethE ++ [0xAA, 0xBB]), 112⟩))
      ∧ exec (.ipv4Decode ⟨.given ipH, 0⟩) .reset
        = .next (State.reset.setReturned (.valueAt (.ipv4Header recH) ⟨Memory.ofBytes ipH, 160⟩)) :=
  ⟨by decide, by decide, rfl, rfl⟩

end Sys2Proof.Tests
end

section
/-! PROOFS. The lookups ETYPE_LOOKUP and PROTO_LOOKUP (`41_lookup_tables.md` rules R80 and R82): each
lookup function by one equation per row of its table, tried in the table's order, each instruction by one
equation, and the two totality statements from these. -/

namespace Sys2Proof.Machine

/-! ### The lookup functions, one equation per row -/

@[simp] theorem etypeLookup_ipv4 (rom : EtypeRom) : etypeLookup rom rom.ipv4 = .ipv4 := if_pos rfl

theorem etypeLookup_ipv6 {rom : EtypeRom} (h4 : rom.ipv6 ≠ rom.ipv4) :
    etypeLookup rom rom.ipv6 = .ipv6 := by
  simp [etypeLookup, h4]

theorem etypeLookup_unknown {rom : EtypeRom} {code : U16} (h4 : code ≠ rom.ipv4) (h6 : code ≠ rom.ipv6) :
    etypeLookup rom code = .unknown code := by
  simp [etypeLookup, h4, h6]

@[simp] theorem protoLookup_icmp (rom : ProtoRom) : protoLookup rom rom.icmp = .icmp := if_pos rfl

theorem protoLookup_tcp {rom : ProtoRom} (hi : rom.tcp ≠ rom.icmp) : protoLookup rom rom.tcp = .tcp := by
  simp [protoLookup, hi]

theorem protoLookup_udp {rom : ProtoRom} (hi : rom.udp ≠ rom.icmp) (ht : rom.udp ≠ rom.tcp) :
    protoLookup rom rom.udp = .udp := by
  simp [protoLookup, hi, ht]

theorem protoLookup_unknown {rom : ProtoRom} {code : Byte} (hi : code ≠ rom.icmp) (ht : code ≠ rom.tcp)
    (hu : code ≠ rom.udp) : protoLookup rom code = .unknown code := by
  simp [protoLookup, hi, ht, hu]

/-! ### The instructions: the lookup is returned, all else is left -/

theorem exec_etypeLookup (code : U16) (s : State) : exec (.etypeLookup code) s
    = .next (s.setReturned (.value (.payloadKind (etypeLookup s.roms.etype code)))) := rfl

theorem exec_protoLookup (code : Byte) (s : State) : exec (.protoLookup code) s
    = .next (s.setReturned (.value (.protocolKind (protoLookup s.roms.proto code)))) := rfl

/-- Settles O30: the kind is the lookup in the state's ethertype table, one clause per row. -/
theorem etypeLookupIsTotal : Obligations.EtypeLookupIsTotal := by
  intro code s
  refine ⟨etypeLookup s.roms.etype code, exec_etypeLookup code s, ?ipv4, ?ipv6, ?unknown⟩
  case ipv4 => rintro rfl; exact etypeLookup_ipv4 _
  case ipv6 => rintro h4 rfl; exact etypeLookup_ipv6 h4
  case unknown => exact etypeLookup_unknown

/-- Settles O31: the kind is the lookup in the state's protocol table, one clause per row. -/
theorem protoLookupIsTotal : Obligations.ProtoLookupIsTotal := by
  intro code s
  refine ⟨protoLookup s.roms.proto code, exec_protoLookup code s, ?icmp, ?tcp, ?udp, ?unknown⟩
  case icmp => rintro rfl; exact protoLookup_icmp _
  case tcp => rintro hi rfl; exact protoLookup_tcp hi
  case udp => rintro hi ht rfl; exact protoLookup_udp hi ht
  case unknown => exact protoLookup_unknown

end Sys2Proof.Machine
end

section
/-! PROOFS. The Fragmentation Decoder (`42_fragmentation.md` rules R90, R92 and R94): FRAG_DECODE and
FRAG_ENCODE by one equation each, the decoded variant from the don't-fragment bit, the fields of an encoded
word from the wire pattern it is, and the three statements from these. -/

namespace Sys2Proof.Machine

/-! ### The instructions: the function's value is returned, all else is left -/

theorem exec_fragDecode (word : U16) (s : State) : exec (.fragDecode word) s
    = .next (s.setReturned (.value (.fragmentation (fragDecode word)))) := rfl

theorem exec_fragEncode (value : Fragmentation) (s : State) : exec (.fragEncode value) s
    = .next (s.setReturned (.value (.word16 (fragEncode value)))) := rfl

/-! ### FRAG_DECODE's value, one equation per value of the don't-fragment bit -/

theorem fragDecode_dont {w : U16} (hdont : fragDont w = true) : fragDecode w = .noFragmentation := by
  rw [fragDecode, hdont]; rfl

theorem fragDecode_not_dont {w : U16} (hdont : fragDont w = false) :
    fragDecode w = .fragmented (fragMore w) (fragOffset w) := by
  rw [fragDecode, hdont]; rfl

/-! ### The fields of an encoded `Fragmented`: it is the wire pattern with its first two bits clear -/

theorem fragReserved_encode_fragmented (more : Bool) (offset : BitVec 13) :
    fragReserved (fragEncode (.fragmented more offset)) = false := by
  rw [← fragWire_eq_encode, fragReserved_wire]

theorem fragDont_encode_fragmented (more : Bool) (offset : BitVec 13) :
    fragDont (fragEncode (.fragmented more offset)) = false := by
  rw [← fragWire_eq_encode, fragDont_wire]

theorem fragMore_encode_fragmented (more : Bool) (offset : BitVec 13) :
    fragMore (fragEncode (.fragmented more offset)) = more := by
  rw [← fragWire_eq_encode, fragMore_wire]

theorem fragOffset_encode_fragmented (more : Bool) (offset : BitVec 13) :
    fragOffset (fragEncode (.fragmented more offset)) = offset := by
  rw [← fragWire_eq_encode, fragOffset_wire]

/-- Settles O37: the word is the encoded value, which `fragDecode_encode` decodes back. -/
theorem fragmentationRoundTrip : Obligations.FragmentationRoundTrip := by
  intro f s
  refine ⟨fragEncode f, exec_fragEncode f s, ?_⟩
  rw [exec_fragDecode, fragDecode_encode]

/-- Settles O35: the two variants by the don't-fragment bit. -/
theorem fragDecodeFollowsDontFragment : Obligations.FragDecodeFollowsDontFragment := by
  intro w s
  rw [exec_fragDecode]
  split
  case isTrue hdont => rw [fragDecode_dont hdont]
  case isFalse hdont => rw [fragDecode_not_dont (Bool.eq_false_of_not_eq_true hdont)]; rfl

/-- Settles O36: the word is the encoded value, its bits those of the wire pattern. -/
theorem fragEncodeWritesCanonicalWord : Obligations.FragEncodeWritesCanonicalWord := by
  intro s
  refine ⟨exec_fragEncode .noFragmentation s, fun more offset => ?_⟩
  exact ⟨fragEncode (.fragmented more offset), exec_fragEncode _ s,
    fragReserved_encode_fragmented more offset, fragDont_encode_fragmented more offset,
    fragMore_encode_fragmented more offset, fragOffset_encode_fragmented more offset⟩

end Sys2Proof.Machine
end

section
/-! PROOFS. The ChecksumValidator (`45_checksum.md` rules R120, R122 and R124): each instruction by one
equation, the fold by one equation per number of passes it makes, and the three statements from these. -/

namespace Sys2Proof.Machine

/-! ### The instructions: the function's value is returned, all else is left -/

theorem exec_protoCode (kind : ProtocolKind) (s : State) : exec (.protoCode kind) s
    = .next (s.setReturned (.value (.code8 (protoCode s.roms.proto kind)))) := rfl

theorem exec_csumWords (h : IPV4Header) (s : State) : exec (.csumWords h) s
    = .next (s.setReturned (.value (.words (csumWords s.roms.proto h)))) := rfl

theorem exec_csumFold (sum : U32) (s : State) : exec (.csumFold sum) s
    = .next (s.setReturned (.value (.word16 (csumFold sum)))) := rfl

theorem exec_csumValidate (h : IPV4Header) (s : State) : exec (.csumValidate h) s
    = .next (s.setReturned (.value (.flag (csumValidate s.roms.proto h)))) := rfl

/-- The stored checksum is no part of the summed words (rule R120). -/
theorem csumWords_with_headerChecksum (rom : ProtoRom) (h : IPV4Header) (c : U16) :
    csumWords rom { h with headerChecksum := c } = csumWords rom h := rfl

/-- The numbers' sum, taken as a 32-bit operand, is the sum the validator folds (rules R124, R125). -/
theorem ofNat_sum_toList (w : CsumWords) :
    BitVec.ofNat 32 (w.toList.map BitVec.toNat).sum = csumSum w := by
  rw [sum_toList, BitVec.ofNat_toNat, BitVec.setWidth_eq]

/-! ### The fold, one equation per number of passes (rule R122) -/

theorem foldPass_toNat_onePass (x : U32) : (foldPass x).toNat = onePass x.toNat := foldPass_toNat x

theorem foldLoop_succ_of_carry (n : Nat) {x : U32} (carry : 0xFFFF < x.toNat) :
    foldLoop (n + 1) x = foldLoop n (foldPass x) :=
  if_pos ((lt_carry x).mpr carry)

/-- Two passes leave no carry, so the 16-bit result loses nothing of the loop's. -/
theorem csumFold_toNat (x : U32) : (csumFold x).toNat = (foldLoop 2 x).toNat := by
  have noCarry : (foldLoop 2 x).toNat < 2 ^ 16 := Nat.lt_succ_of_le (foldLoop_two x)
  rw [csumFold, BitVec.toNat_setWidth, Nat.mod_eq_of_lt noCarry]

theorem csumFold_toNat_of_no_carry {x : U32} (fits : x.toNat ≤ 0xFFFF) :
    (csumFold x).toNat = x.toNat := by
  rw [csumFold_toNat, foldLoop_done 2 x fits]

theorem csumFold_toNat_of_carry_once {x : U32} (carry : 0xFFFF < x.toNat)
    (fits : onePass x.toNat ≤ 0xFFFF) : (csumFold x).toNat = onePass x.toNat := by
  rw [← foldPass_toNat_onePass] at fits ⊢
  rw [csumFold_toNat, foldLoop_succ_of_carry 1 carry, foldLoop_done 1 _ fits]

theorem csumFold_toNat_of_carry_twice {x : U32} (carry : 0xFFFF < x.toNat)
    (again : 0xFFFF < onePass x.toNat) : (csumFold x).toNat = onePass (onePass x.toNat) := by
  rw [← foldPass_toNat_onePass] at again
  rw [csumFold_toNat, foldLoop_succ_of_carry 1 carry, foldLoop_succ_of_carry 0 again, foldLoop,
    foldPass_toNat_onePass, foldPass_toNat_onePass]

/-- Settles O41: one clause per number of passes; what a second pass leaves is a 16-bit result, so it has
no carry. -/
theorem csumFoldRepeatsUntilNoCarry : Obligations.CsumFoldRepeatsUntilNoCarry := by
  intro x s
  refine ⟨csumFold x, exec_csumFold x s, csumFold_toNat_of_no_carry, csumFold_toNat_of_carry_once,
    fun carry again => ?_, csumFold_spec x⟩
  have twice := csumFold_toNat_of_carry_twice carry again
  exact ⟨twice ▸ Nat.le_of_lt_succ (csumFold x).isLt, twice⟩

/-- Settles O40: the words are those of `csumWords`, the joined ones read as numbers. -/
theorem csumWordsReassemblesTheHeader : Obligations.CsumWordsReassemblesTheHeader := by
  intro h s
  refine ⟨csumWords s.roms.proto h, fragEncode h.fragmentation, protoCode s.roms.proto h.protocol,
    exec_csumWords h s, exec_fragEncode _ s, exec_protoCode _ s, ?word0, rfl, rfl, rfl,
    joinBytes_toNat _ _, joinBytes_toNat _ _, joinBytes_toNat _ _, joinBytes_toNat _ _,
    joinBytes_toNat _ _, ?stored⟩
  case word0 => exact joinWord0_toNat _ _ _ _
  case stored =>
    intro c
    rw [exec_csumWords, exec_csumWords, csumWords_with_headerChecksum]

/-- Settles O44: the folded sum is that of the validator's own words, which `csumValidate_iff` compares. -/
theorem csumValidateComparesComplement : Obligations.CsumValidateComparesComplement := by
  intro h s
  refine ⟨csumWords s.roms.proto h, csumFold (csumSum (csumWords s.roms.proto h)),
    csumValidate s.roms.proto h, exec_csumWords h s, ?_, exec_csumValidate h s,
    csumValidate_iff s.roms.proto h⟩
  rw [ofNat_sum_toList, exec_csumFold]

end Sys2Proof.Machine
end

section
/-! PROOFS. Steps and runs (`10_state.md` rules R21, R23, R24, R28 and R29): what a step writes, that the
invariant is kept, the host's reads by one equation per result, and the statements from these. -/

namespace Sys2Proof.Machine

/-! ### What a step writes, and the invariant -/

/-- A step that goes on writes no register, or it is a transaction over a byte sequence of the host's,
which leaves the tables and the bound. -/
theorem step_writes {s t : State} (h : step s = .next t) :
    s.sameRegisters t ∨ ∃ bytes, t.buf = Memory.ofBytes bytes ∧
      t.result = parseRecord s.roms (Memory.ofBytes bytes) ∧ t.roms = s.roms ∧ t.maxLen = s.maxLen := by
  rcases step_cases h with ⟨-, rfl⟩ | ⟨_, _, _, bytes, -, -, rfl⟩ | ⟨_, _, _, -, rfl⟩
  case inl => exact .inl ⟨rfl, rfl, rfl, rfl⟩
  case inr.inl => exact .inr ⟨bytes, rfl, rfl, rfl, rfl⟩
  case inr.inr => exact .inl ⟨rfl, rfl, rfl, rfl⟩

theorem inv_of_sameRegisters {s t : State} (hs : s.Inv) (h : s.sameRegisters t) : t.Inv := by
  obtain ⟨hbuf, hresult, hroms, -⟩ := h
  simpa only [State.Inv, State.resultOfBuf, hbuf, hresult, hroms] using hs

theorem inv_of_parseRecord {t : State} {bytes : List Byte} (hroms : t.roms.wf = true)
    (hbuf : t.buf = Memory.ofBytes bytes)
    (hresult : t.result = parseRecord t.roms (Memory.ofBytes bytes)) : t.Inv :=
  ⟨hbuf ▸ wf_ofBytes bytes, hroms, .inr (hbuf ▸ hresult)⟩

theorem coherent_reset (len : Nat) : Record.reset.coherent len = true := by
  simp [Record.coherent, Record.reset]

theorem inv_coherent {s : State} (hs : s.Inv) : s.result.coherent s.buf.len = true := by
  obtain ⟨-, -, hreset | hparse⟩ := hs
  · rw [hreset]; exact coherent_reset _
  · rw [hparse]; exact coherent_parseRecord _ _

/-- What holds at the start of a run and is kept by every step holds at its end. -/
theorem reaches_keeps {P : State → Prop} (keeps : ∀ t u : State, P t → step t = .next u → P u)
    {s t : State} (hrun : Reaches s t) (hs : P s) : P t := by
  induction hrun with
  | here => exact hs
  | next _ hstep ih => exact keeps _ _ ih hstep

/-- Settles O3: a step writes no register, or it is a transaction whose record is PARSE's over the new
buffer. -/
theorem everyStepKeepsTheInvariant : Obligations.EveryStepKeepsTheInvariant := by
  intro s t hs h
  rcases step_writes h with hsame | ⟨bytes, hbuf, hresult, hroms, -⟩
  · exact inv_of_sameRegisters hs hsame
  · obtain ⟨-, hwf, -⟩ := hs
    rw [← hroms] at hwf hresult
    exact inv_of_parseRecord hwf hbuf hresult

/-- Settles O4: the invariant is kept along the run, and it makes the registers coherent. -/
theorem runsKeepRegistersCoherent : Obligations.RunsKeepRegistersCoherent := by
  intro s t hs hrun
  have ht : t.Inv := reaches_keeps everyStepKeepsTheInvariant hrun hs
  exact ⟨ht, inv_coherent ht⟩

theorem step_keeps_tables {s t : State} (h : step s = .next t) : t.roms = s.roms ∧ t.maxLen = s.maxLen := by
  rcases step_writes h with ⟨-, -, hroms, hmax⟩ | ⟨_, -, -, hroms, hmax⟩
  · exact ⟨hroms, hmax⟩
  · exact ⟨hroms, hmax⟩

/-- Settles O5: no step writes them, so no run does. -/
theorem runsNeverWriteTheTables : Obligations.RunsNeverWriteTheTables := by
  intro s t hrun
  refine reaches_keeps (P := fun u => u.roms = s.roms ∧ u.maxLen = s.maxLen) ?_ hrun ⟨rfl, rfl⟩
  rintro t u ⟨hroms, hmax⟩ h
  obtain ⟨hroms', hmax'⟩ := step_keeps_tables h
  exact ⟨hroms'.trans hroms, hmax'.trans hmax⟩

/-- Settles O2: the registers are those of reset, the default keys are distinct. -/
theorem resetIsGood : Obligations.ResetIsGood :=
  ⟨rfl, by decide, .inl rfl⟩

/-- Settles O1: the fields of `State.reset`, one by one. -/
theorem resetHoldsTheResetTable : Obligations.ResetHoldsTheResetTable :=
  ⟨rfl, rfl, rfl, rfl, rfl, rfl, rfl, rfl, rfl, rfl, rfl⟩

/-! ### The three kinds of step -/

theorem step_idle {s : State} (hp : s.pending = []) : step s = .next s := by
  simp only [step, hp]

theorem step_read {s : State} {reg : ResultReg} {rest : List Request} (hp : s.pending = .read reg :: rest) :
    step s = readResult reg (s.served rest) := by
  simp only [step, hp]

theorem step_call {s : State} {form : Form} {bytes : List Byte} {rest : List Request} {i : Instr}
    (hp : s.pending = .call form bytes :: rest) (hd : decode s.roms form bytes = .ok i) :
    step s = exec i (s.served rest) := by
  simp only [step, hp, hd]

theorem step_undecodable {s : State} {form : Form} {bytes : List Byte} {rest : List Request}
    {e : DecodeError} (hp : s.pending = .call form bytes :: rest)
    (hd : decode s.roms form bytes = .error e) : step s = .refused (.undecodable e) := by
  simp only [step, hp, hd]

/-- Settles O6: one clause per kind of step. -/
theorem stepExecutesTheDecodedCall : Obligations.StepExecutesTheDecodedCall :=
  fun _ _ _ _ hp => ⟨fun _ => step_call hp, fun _ => step_undecodable hp, fun _ => step_idle⟩

/-! ### The host's reads -/

theorem readPresent_absent {α : Type} (s : State) (v : Option α) (value : α → Value) (f : Fault) :
    s.readPresent false v value f = .fault f := rfl

theorem readPresent_some {α : Type} (s : State) (a : α) (value : α → Value) (f : Fault) :
    s.readPresent true (some a) value f = .next (s.setReturned (.value (value a))) := rfl

theorem readResult_eth (s : State) :
    readResult .eth s = s.readPresent s.result.ethPresent s.result.eth .ethHeader .ethAbsent := rfl

theorem readResult_ip4 (s : State) :
    readResult .ip4 s = s.readPresent s.result.ip4Present s.result.ip4 .ipv4Header .ip4Absent := rfl

theorem readResult_csumOk (s : State) :
    readResult .csumOk s = s.readPresent s.result.ip4Present s.result.csumOk .flag .csumOkAbsent := rfl

theorem remainder_eq_drop (s : State) : s.remainder = s.buf.toBytes.drop s.result.remStart :=
  readBytes_to_end s.buf s.result.remStart

theorem readResult_remainder (s : State) : readResult .remainder s
    = .next (s.setReturned (.value (.bytes (s.buf.toBytes.drop s.result.remStart)))) := by
  rw [← remainder_eq_drop]; rfl

/-- Settles O8: the guarded reads, with the flag 0 and with the flag 1 and a value. -/
theorem readingAnAbsentRecordFaults : Obligations.ReadingAnAbsentRecordFaults := by
  intro s reg rest hp
  rw [step_read hp]
  refine ⟨?_, ?_, ?_, ?_, ?_, ?_⟩
  · rintro rfl hflag
    rw [readResult_eth, served_result, hflag, readPresent_absent]
  · rintro rfl hflag
    rw [readResult_ip4, served_result, hflag, readPresent_absent]
  · rintro rfl hflag
    rw [readResult_csumOk, served_result, hflag, readPresent_absent]
  · rintro header rfl hflag hvalue
    rw [readResult_eth, served_result, hflag, hvalue, readPresent_some]
  · rintro header rfl hflag hvalue
    rw [readResult_ip4, served_result, hflag, hvalue, readPresent_some]
  · rintro valid rfl hflag hvalue
    rw [readResult_csumOk, served_result, hflag, hvalue, readPresent_some]

/-- Settles O9: the reads without a guard; the remainder is what `BUF` holds from `REM_START` on. -/
theorem otherResultsCanAlwaysBeRead : Obligations.OtherResultsCanAlwaysBeRead := by
  intro s reg rest hp
  rw [step_read hp]
  refine ⟨?_, ?_, ?_, ?_, ?_, ?_⟩
  · rintro rfl; rfl
  · rintro rfl; rfl
  · rintro rfl; rfl
  · rintro rfl; rfl
  · rintro rfl; rfl
  · rintro rfl; exact readResult_remainder _

/-- In coherent registers each of the three options holds a value exactly when its flag is 1. -/
theorem coherent_isSome {len : Nat} {r : Record} (h : r.coherent len = true) :
    r.eth.isSome = r.ethPresent ∧ r.ip4.isSome = r.ip4Present ∧ r.csumOk.isSome = r.ip4Present := by
  simp only [Record.coherent, Bool.and_eq_true, decide_eq_true_eq] at h
  obtain ⟨⟨⟨⟨⟨⟨heth, hip4⟩, hcsum⟩, -⟩, -⟩, -⟩, -⟩ := h
  exact ⟨heth, hip4, hcsum⟩

/-- Settles O10: the invariant gives a value to every register whose flag is 1, which O8 then reads. -/
theorem presentRecordsCanBeRead : Obligations.PresentRecordsCanBeRead := by
  intro s rest hs
  obtain ⟨heth, hip4, hcsum⟩ := coherent_isSome (inv_coherent hs)
  refine ⟨fun hp hflag => ?_, fun hp hflag => ?_, fun hp hflag => ?_⟩
  · obtain ⟨-, -, -, readEth, -, -⟩ := readingAnAbsentRecordFaults s _ rest hp
    obtain ⟨header, hvalue⟩ := Option.isSome_iff_exists.mp (heth.trans hflag)
    exact ⟨header, readEth header rfl hflag hvalue⟩
  · obtain ⟨-, -, -, -, readIp4, -⟩ := readingAnAbsentRecordFaults s _ rest hp
    obtain ⟨header, hvalue⟩ := Option.isSome_iff_exists.mp (hip4.trans hflag)
    exact ⟨header, readIp4 header rfl hflag hvalue⟩
  · obtain ⟨-, -, -, -, -, readCsumOk⟩ := readingAnAbsentRecordFaults s _ rest hp
    obtain ⟨valid, hvalue⟩ := Option.isSome_iff_exists.mp (hcsum.trans hflag)
    exact ⟨valid, readCsumOk valid rfl hflag hvalue⟩

end Sys2Proof.Machine
end

section
/-! PROOFS. The encodings (`30_encoding.md` sections 1 to 3): the round trip over all instructions, the two
header forms read off a buffer, what the encoder writes for a decoded word, and the statements from
these. -/

namespace Sys2Proof.Machine

/-! ### The round trip -/

/-- Settles O11: one law per constructor, those of `Laws.RoundTrip`. -/
theorem decodeUndoesEncode : Obligations.DecodeUndoesEncode := by
  intro i roms
  cases i with
  | takeBits c width => exact Laws.RoundTrip.takeBits c width roms
  | takeBytes c n => exact Laws.RoundTrip.takeBytes c n roms
  | etypeLookup code => exact Laws.RoundTrip.etypeLookup code roms
  | protoLookup code => exact Laws.RoundTrip.protoLookup code roms
  | protoCode kind => exact Laws.RoundTrip.protoCode kind roms
  | fragDecode word => exact Laws.RoundTrip.fragDecode word roms
  | fragEncode value => exact Laws.RoundTrip.fragEncode value roms
  | ethDecode c => exact Laws.RoundTrip.ethDecode c roms
  | ipv4Decode c => exact Laws.RoundTrip.ipv4Decode c roms
  | csumWords h => exact Laws.RoundTrip.csumWords h roms
  | csumFold sum => exact Laws.RoundTrip.csumFold sum roms
  | csumValidate h => exact Laws.RoundTrip.csumValidate h roms
  | parse bytes => exact Laws.RoundTrip.parse bytes roms
  | opReserved13 => exact Laws.RoundTrip.opReserved13 roms
  | opReserved14 => exact Laws.RoundTrip.opReserved14 roms
  | opReserved15 => exact Laws.RoundTrip.opReserved15 roms
  | ethHdr destination source code => exact Laws.RoundTrip.ethHdr destination source code roms
  | ipv4Hdr w => exact Laws.RoundTrip.ipv4Hdr w roms
  | ipv4W0 v l d e => exact Laws.RoundTrip.ipv4W0 v l d e roms
  | fragNofrag r m o => exact Laws.RoundTrip.fragNofrag r m o roms
  | fragFragmented r m o => exact Laws.RoundTrip.fragFragmented r m o roms
  | fragEncNofrag => exact Laws.RoundTrip.fragEncNofrag roms
  | fragEncFragmented m o => exact Laws.RoundTrip.fragEncFragmented m o roms
  | csumW4 t p => exact Laws.RoundTrip.csumW4 t p roms
  | csumW5ToW8 a b => exact Laws.RoundTrip.csumW5ToW8 a b roms
  | etypeIpv4 => exact Laws.RoundTrip.etypeIpv4 roms
  | etypeIpv6 => exact Laws.RoundTrip.etypeIpv6 roms
  | etypeUnknown code => exact Laws.RoundTrip.etypeUnknown code roms
  | protoIcmp => exact Laws.RoundTrip.protoIcmp roms
  | protoTcp => exact Laws.RoundTrip.protoTcp roms
  | protoUdp => exact Laws.RoundTrip.protoUdp roms
  | protoUnknown code => exact Laws.RoundTrip.protoUnknown code roms

/-- Serving the call that was put in front leaves the state it was put in front of. -/
theorem withCall_served (s : State) (form : Form) (bytes : List Byte) :
    (s.withCall form bytes).served s.pending = s := rfl

/-- Settles O7: the bytes decode to the instruction (O11), and the step executes what they decode to. -/
theorem stepExecutesTheEncodedInstruction : Obligations.StepExecutesTheEncodedInstruction := by
  intro s i hroms hwf
  rw [step_call (withCall_pending s _ _) (decodeUndoesEncode i s.roms hroms hwf), withCall_served]

/-! ### The two header forms, read off a buffer -/

/-- The twenty bytes of a buffer from address `a` on as wire fields (rule R52). -/
def ipv4WireAt (m : Memory) (a : Nat) : Ipv4Wire :=
  ⟨word0Version (wordAt m a), word0HeaderLength (wordAt m a), word0Dscp (wordAt m a),
    word0Ecn (wordAt m a), wordAt m (a + 2), wordAt m (a + 4), fragReserved (wordAt m (a + 6)),
    fragDont (wordAt m (a + 6)), fragMore (wordAt m (a + 6)), fragOffset (wordAt m (a + 6)),
    m.byteAt (a + 8), m.byteAt (a + 9), wordAt m (a + 10), ip4At m (a + 12), ip4At m (a + 16)⟩

theorem decodeEthHdr_readBytes (m : Memory) (a : Nat) : decodeEthHdr (m.readBytes a 14)
    = .ok (.ethHdr (macAt m a) (macAt m (a + 6)) (wordAt m (a + 12))) := rfl

theorem decodeIpv4Hdr_readBytes (m : Memory) (a : Nat) :
    decodeIpv4Hdr (m.readBytes a 20) = .ok (.ipv4Hdr (ipv4WireAt m a)) := rfl

theorem headerOfWire_ipv4WireAt (rom : ProtoRom) (m : Memory) (a : Nat) :
    headerOfWire rom (ipv4WireAt m a) = ipv4HeaderAt rom m a := rfl

theorem encodeU16_be16 (hi lo : Byte) : encodeU16 (be16 hi lo) = [hi, lo] := by
  rw [encodeU16, hi8_be16, lo8_be16]

theorem encodeU16_wordAt (m : Memory) (a : Nat) : encodeU16 (wordAt m a) = m.readBytes a 2 :=
  encodeU16_be16 _ _

theorem ethWireBytes_readBytes (m : Memory) (a : Nat) :
    ethWireBytes (macAt m a) (macAt m (a + 6)) (wordAt m (a + 12)) = m.readBytes a 14 := by
  rw [ethWireBytes, encodeU16_wordAt]; rfl

theorem bytes_ipv4WireAt (m : Memory) (a : Nat) : (ipv4WireAt m a).bytes = m.readBytes a 20 := by
  simp only [Ipv4Wire.bytes, ipv4WireAt, word0Wire_slices, fragWire_slices, encodeU16_wordAt]; rfl

/-- A byte sequence of length `n` is what its buffer holds from address 0 on. -/
theorem eq_readBytes_of_length {bytes : List Byte} {n : Nat} (hlen : bytes.length = n) :
    bytes = (Memory.ofBytes bytes).readBytes 0 n := by
  subst hlen; exact (toBytes_ofBytes bytes).symm

theorem ethHdr_keeps_bytes {roms : Roms} {bytes : List Byte} {i : Instr} (hlen : bytes.length = 14)
    (hd : decodeEthHdr bytes = .ok i) : formOf i = .ethHdr ∧ encode roms i = bytes := by
  rw [eq_readBytes_of_length hlen, decodeEthHdr_readBytes] at hd
  cases hd
  exact ⟨rfl, (ethWireBytes_readBytes _ 0).trans (eq_readBytes_of_length hlen).symm⟩

theorem ipv4Hdr_keeps_bytes {roms : Roms} {bytes : List Byte} {i : Instr} (hlen : bytes.length = 20)
    (hd : decodeIpv4Hdr bytes = .ok i) : formOf i = .ipv4Hdr ∧ encode roms i = bytes := by
  rw [eq_readBytes_of_length hlen, decodeIpv4Hdr_readBytes] at hd
  cases hd
  exact ⟨rfl, (bytes_ipv4WireAt _ 0).trans (eq_readBytes_of_length hlen).symm⟩

/-! ### The word forms: form and bytes of the instruction a word is read as -/

theorem instrOfWord0_keeps (roms : Roms) (w : U16) :
    formOf (instrOfWord0 w) = .word0 ∧ encode roms (instrOfWord0 w) = encodeU16 w := by
  refine ⟨rfl, ?_⟩
  rw [instrOfWord0, encode, word0Wire_slices]

theorem instrOfFragWord_keeps (roms : Roms) (w : U16) :
    formOf (instrOfFragWord w) = .fragWord ∧ encode roms (instrOfFragWord w) = encodeU16 w := by
  have whole := fragWire_slices w
  unfold instrOfFragWord
  split
  case isTrue hdont =>
    rw [hdont] at whole
    exact ⟨rfl, congrArg encodeU16 whole⟩
  case isFalse hdont =>
    rw [Bool.eq_false_of_not_eq_true hdont] at whole
    exact ⟨rfl, congrArg encodeU16 whole⟩

/-- The mask test of an encoder output word says that its two upper bits are clear (rule R92). -/
theorem upper_bits_clear {w : U16} (hmask : w &&& 0xC000#16 = 0#16) :
    fragReserved w = false ∧ fragDont w = false := by
  have bit (i : Nat) (hi : (0xC000#16).getLsbD i = true) : w.getLsbD i = false := by
    have := congrArg (·.getLsbD i) hmask
    simpa [BitVec.getLsbD_and, hi] using this
  exact ⟨bit 15 rfl, bit 14 rfl⟩

theorem instrOfFragEncWord_keeps {roms : Roms} {w : U16} {i : Instr} (hd : instrOfFragEncWord w = .ok i) :
    formOf i = .fragEncWord ∧ encode roms i = encodeU16 w := by
  unfold instrOfFragEncWord at hd
  split at hd
  · next hw => cases hd; exact ⟨rfl, congrArg encodeU16 hw.symm⟩
  · split at hd
    · next hmask =>
      obtain ⟨hreserved, hdont⟩ := upper_bits_clear hmask
      have whole := fragWire_slices w
      rw [hreserved, hdont] at whole
      cases hd
      exact ⟨rfl, congrArg encodeU16 whole⟩
    · cases hd

theorem instrOfEtypeCode_keeps (roms : Roms) (code : U16) :
    formOf (instrOfEtypeCode roms.etype code) = .etypeCode ∧
      encode roms (instrOfEtypeCode roms.etype code) = encodeU16 code := by
  unfold instrOfEtypeCode
  split
  · next h4 => exact ⟨rfl, congrArg encodeU16 h4.symm⟩
  · split
    · next h6 => exact ⟨rfl, congrArg encodeU16 h6.symm⟩
    · exact ⟨rfl, rfl⟩

theorem instrOfProtoCode_keeps (roms : Roms) (code : Byte) :
    formOf (instrOfProtoCode roms.proto code) = .protoCode ∧
      encode roms (instrOfProtoCode roms.proto code) = [code] := by
  unfold instrOfProtoCode
  split
  · next hi => exact ⟨rfl, congrArg ([·]) hi.symm⟩
  · split
    · next ht => exact ⟨rfl, congrArg ([·]) ht.symm⟩
    · split
      · next hu => exact ⟨rfl, congrArg ([·]) hu.symm⟩
      · exact ⟨rfl, rfl⟩

theorem decodeWord_be16 (form : Form) (f : U16 → Except DecodeError Instr) (hi lo : Byte) :
    decodeWord form f [hi, lo] = f (be16 hi lo) := rfl

/-- If reading a word as an instruction keeps the word, then so does the word form. -/
theorem decodeWord_keeps {roms : Roms} {form : Form} {f : U16 → Except DecodeError Instr}
    {bytes : List Byte} {i : Instr}
    (keeps : ∀ w, f w = .ok i → formOf i = form ∧ encode roms i = encodeU16 w)
    (hlen : bytes.length = 2) (hd : decodeWord form f bytes = .ok i) :
    formOf i = form ∧ encode roms i = bytes := by
  obtain ⟨hi, lo, rfl⟩ := List.length_eq_two.mp hlen
  rw [← encodeU16_be16 hi lo]
  exact keeps _ hd

/-- Settles O12: form by form, the instruction's bytes are those of the word or header it was read from. -/
theorem wireFormsKeepEveryBit : Obligations.WireFormsKeepEveryBit := by
  intro roms form bytes i heth hip hproto hword hop hd
  cases form with
  | op => exact absurd rfl hop
  | ethHdr => exact ethHdr_keeps_bytes (heth rfl) hd
  | ipv4Hdr => exact ipv4Hdr_keeps_bytes (hip rfl) hd
  | protoCode =>
    obtain ⟨code, rfl⟩ := List.length_eq_one_iff.mp (hproto rfl)
    cases hd
    exact instrOfProtoCode_keeps roms code
  | word0 =>
    refine decodeWord_keeps (f := fun w => .ok (instrOfWord0 w)) ?_ (hword nofun nofun nofun) hd
    rintro w ⟨⟩; exact instrOfWord0_keeps roms w
  | fragWord =>
    refine decodeWord_keeps (f := fun w => .ok (instrOfFragWord w)) ?_ (hword nofun nofun nofun) hd
    rintro w ⟨⟩; exact instrOfFragWord_keeps roms w
  | fragEncWord =>
    exact decodeWord_keeps (fun w => instrOfFragEncWord_keeps) (hword nofun nofun nofun) hd
  | csumW4 =>
    refine decodeWord_keeps (f := fun w => .ok (.csumW4 (hi8 w) (lo8 w))) ?_ (hword nofun nofun nofun) hd
    rintro w ⟨⟩; exact ⟨rfl, rfl⟩
  | csumHalf =>
    refine decodeWord_keeps (f := fun w => .ok (.csumW5ToW8 (hi8 w) (lo8 w))) ?_
      (hword nofun nofun nofun) hd
    rintro w ⟨⟩; exact ⟨rfl, rfl⟩
  | etypeCode =>
    refine decodeWord_keeps (f := fun w => .ok (instrOfEtypeCode roms.etype w)) ?_
      (hword nofun nofun nofun) hd
    rintro w ⟨⟩; exact instrOfEtypeCode_keeps roms w

/-- Settles O17: the bytes are those of `w`, so the fields are its slices, and the validator's formula is
the wire pattern they make. -/
theorem word0SplitsAndJoins : Obligations.Word0SplitsAndJoins := by
  intro roms w s
  refine ⟨word0Version w, word0HeaderLength w, word0Dscp w, word0Ecn w, ?_, rfl, rfl, rfl, rfl, rfl, ?_⟩
  · change decodeWord .word0 (fun w => .ok (instrOfWord0 w)) [hi8 w, lo8 w] = .ok (instrOfWord0 w)
    rw [decodeWord_be16, be16_hi8_lo8]
  · exact (word0Wire_eq_join _ _ _ _).symm.trans (word0Wire_slices w)

/-- Settles O13: the decoder evaluated on the eight byte strings. -/
theorem writtenWordsDecode : Obligations.WrittenWordsDecode :=
  ⟨rfl, rfl, rfl, rfl, rfl, rfl, rfl, rfl⟩

/-- An index byte above 15 is no call. -/
theorem decodeCall_badOpByte {op : Byte} (args : List Byte) (h : 15 < op.toNat) :
    decodeCall op args = .error (.badOpByte op) := by
  obtain ⟨n, hn⟩ : ∃ n, op.toNat = n + 16 := ⟨op.toNat - 16, by omega⟩
  simp only [decodeCall, hn]

/-- Settles O14: the rows of the three indices by the decoder and by exec, the bytes above 15 by
`decodeCall_badOpByte`. -/
theorem reservedIndicesAreRefused : Obligations.ReservedIndicesAreRefused :=
  fun _ args _ => ⟨rfl, rfl, rfl, rfl, rfl, rfl, fun _ h => decodeCall_badOpByte args h⟩

end Sys2Proof.Machine
end

section
/-! PROOFS. The buffer and the cursor (`20_memory.md`, `40_bitcursor.md`): the four calls on a cursor by one
equation where they succeed and one where the input is short, a sequence of takes in closed form, and the
statements from these. -/

namespace Sys2Proof.Machine

/-- Settles O18: the laws of `Memory.ofBytes`; a canonical buffer is the one made of its bytes. -/
theorem bufferIsTheHostsSequence : Obligations.BufferIsTheHostsSequence := by
  refine ⟨read_ofBytes, wf_ofBytes, fun m n hm hn heq => ?_⟩
  rw [← ofBytes_toBytes m hm, ← ofBytes_toBytes n hn, heq]

/-! ### The calls on a cursor: what is returned, and where the input is too short -/

theorem cursorOf_at (s : State) {c : CursorArg} {a : Nat} (hpos : c.pos = 8 * a) :
    cursorOf s c = ⟨bufOf s c.buf, 8 * a⟩ := by
  rw [cursorOf, hpos]

theorem pos_eq_of_aligned {p : Nat} (ha : p % 8 = 0) : p = 8 * (p / 8) := by omega

/-- A byte-aligned offset moved over `n` bytes, counted in bits. -/
theorem mul_div_add_of_aligned {p : Nat} (n : Nat) (ha : p % 8 = 0) : 8 * (p / 8 + n) = p + 8 * n := by
  omega

theorem exec_takeBits_ok {c : CursorArg} {w : Nat} {s : State} (hf : fits s c = true) (h1 : 1 ≤ w)
    (h16 : w ≤ 16) (hlen : c.pos + w ≤ 8 * (bufOf s c.buf).len) :
    exec (.takeBits c w) s = .next (s.setReturned (.valueAt
      (.bits w (BitVec.ofNat 16 ((bufOf s c.buf).readBits c.pos w))) ⟨bufOf s c.buf, c.pos + w⟩)) := by
  rw [exec_takeBits c w s hf, takeBits_ok (cursorOf s c) w h1 h16 hlen, finish_ok]; rfl

theorem exec_takeBits_short {c : CursorArg} {w : Nat} {s : State} (hf : fits s c = true) (h1 : 1 ≤ w)
    (h16 : w ≤ 16) (hlen : 8 * (bufOf s c.buf).len < c.pos + w) :
    exec (.takeBits c w) s = .next (s.setReturned (.raised .insufficientInput)) := by
  rw [exec_takeBits c w s hf, takeBits_short (cursorOf s c) w h1 h16 hlen, finish_insufficient]

theorem exec_takeBytes_ok {c : CursorArg} {n : Nat} {s : State} (hf : fits s c = true)
    (ha : c.pos % 8 = 0) (hlen : c.pos / 8 + n ≤ (bufOf s c.buf).len) :
    exec (.takeBytes c n) s = .next (s.setReturned (.valueAt
      (.bytes ((bufOf s c.buf).readBytes (c.pos / 8) n)) ⟨bufOf s c.buf, c.pos + 8 * n⟩)) := by
  rw [exec_takeBytes c n s hf, takeBytes_ok (cursorOf s c) n ha hlen, finish_ok]; rfl

theorem exec_takeBytes_short {c : CursorArg} {n : Nat} {s : State} (hf : fits s c = true)
    (ha : c.pos % 8 = 0) (hlen : (bufOf s c.buf).len < c.pos / 8 + n) :
    exec (.takeBytes c n) s = .next (s.setReturned (.raised .insufficientInput)) := by
  rw [exec_takeBytes c n s hf, takeBytes_short (cursorOf s c) n ha hlen, finish_insufficient]

theorem exec_ethDecode_ok {c : CursorArg} {a : Nat} {s : State} (hf : fits s c = true)
    (hpos : c.pos = 8 * a) (hlen : a + 14 ≤ (bufOf s c.buf).len) :
    exec (.ethDecode c) s = .next (s.setReturned (.valueAt
      (.ethHeader (ethHeaderAt s.roms.etype (bufOf s c.buf) a)) ⟨bufOf s c.buf, c.pos + 112⟩)) := by
  rw [exec_ethDecode c s hf, cursorOf_at s hpos, ethDecode_ok _ _ _ hlen, finish_ok, hpos, Nat.mul_add]

theorem exec_ethDecode_short {c : CursorArg} {a : Nat} {s : State} (hf : fits s c = true)
    (hpos : c.pos = 8 * a) (hlen : (bufOf s c.buf).len < a + 14) :
    exec (.ethDecode c) s = .next (s.setReturned (.raised .insufficientInput)) := by
  rw [exec_ethDecode c s hf, cursorOf_at s hpos, ethDecode_short _ _ _ hlen, finish_insufficient]

theorem exec_ipv4Decode_ok {c : CursorArg} {a : Nat} {s : State} (hf : fits s c = true)
    (hpos : c.pos = 8 * a) (hlen : a + 20 ≤ (bufOf s c.buf).len) :
    exec (.ipv4Decode c) s = .next (s.setReturned (.valueAt
      (.ipv4Header (ipv4HeaderAt s.roms.proto (bufOf s c.buf) a)) ⟨bufOf s c.buf, c.pos + 160⟩)) := by
  rw [exec_ipv4Decode c s hf, cursorOf_at s hpos, ipv4Decode_ok _ _ _ hlen, finish_ok, hpos, Nat.mul_add]

theorem exec_ipv4Decode_short {c : CursorArg} {a : Nat} {s : State} (hf : fits s c = true)
    (hpos : c.pos = 8 * a) (hlen : (bufOf s c.buf).len < a + 20) :
    exec (.ipv4Decode c) s = .next (s.setReturned (.raised .insufficientInput)) := by
  rw [exec_ipv4Decode c s hf, cursorOf_at s hpos, ipv4Decode_short _ _ _ hlen, finish_insufficient]

/-- Settles O24: a short input raises, and what raised had a short input. -/
theorem shortInputRaisesAndConsumesNothing : Obligations.ShortInputRaisesAndConsumesNothing := by
  intro c s hf
  refine ⟨fun width h1 h16 => ⟨fun h => ?_, exec_takeBits_short hf h1 h16⟩,
    fun n ha => ⟨fun h => ?_, exec_takeBytes_short hf ha⟩,
    fun ha => ⟨fun h => ?_, exec_ethDecode_short hf (pos_eq_of_aligned ha)⟩,
    fun ha => ⟨fun h => ?_, exec_ipv4Decode_short hf (pos_eq_of_aligned ha)⟩⟩
  · obtain ⟨-, -, -, ⟨-, hshort⟩ | ⟨hvalue, -⟩⟩ := takeBits_answers h
    · exact hshort
    · cases hvalue
  · obtain ⟨-, -, ⟨-, hshort⟩ | ⟨hvalue, -⟩⟩ := takeBytes_answers h
    · exact hshort
    · cases hvalue
  · obtain ⟨-, -, ⟨-, hshort⟩ | ⟨hvalue, -⟩⟩ := ethDecode_answers h
    · exact hshort
    · cases hvalue
  · obtain ⟨-, -, ⟨-, hshort⟩ | ⟨hvalue, -⟩⟩ := ipv4Decode_answers h
    · exact hshort
    · cases hvalue

/-! ### TAKE_BITS -/

/-- What TAKE_BITS returns in contract, as a number: 16 bits hold it (rule R70). -/
theorem toNat_ofNat_readBits (m : Memory) (p : Nat) {w : Nat} (h16 : w ≤ 16) :
    (BitVec.ofNat 16 (m.readBits p w)).toNat = m.readBits p w := by
  rw [BitVec.toNat_ofNat]
  exact Nat.mod_eq_of_lt ((readBits_lt m p w).trans_le (Nat.pow_le_pow_right (by decide) h16))

/-- A bit within the buffer is a bit of the byte read there (rule R34). -/
theorem bit_eq_read (m : Memory) {p : Nat} (hp : p < 8 * m.len) :
    m.bit p = ((m.read (p / 8)).getD 0).getLsbD (7 - p % 8) := by
  rw [Memory.read, if_pos (by omega)]; rfl

/-- Settles O19: the value is `readBits`, which is the sum of the bits by `readBits_sum`. -/
theorem takeBitsReadsBigEndian : Obligations.TakeBitsReadsBigEndian := by
  intro c width s hf h1 h16 hlen
  refine ⟨_, exec_takeBits_ok hf h1 h16 hlen, ?_⟩
  rw [toNat_ofNat_readBits _ _ h16, readBits_sum]
  refine Finset.sum_congr rfl fun i hi => ?_
  have inside : c.pos + i < 8 * (bufOf s c.buf).len := by
    have := Finset.mem_range.mp hi
    omega
  rw [bit_eq_read _ inside]

/-- The words of two reads in a row put together: the first shifted past the second (rule R70). -/
theorem ofNat_readBits_add (m : Memory) (p : Nat) {a b : Nat} (hab : a + b ≤ 16) :
    (BitVec.ofNat 16 (m.readBits p a) <<< b) ||| BitVec.ofNat 16 (m.readBits (p + a) b)
      = BitVec.ofNat 16 (m.readBits p (a + b)) := by
  have hb := readBits_lt m (p + a) b
  have hsum : m.readBits p a <<< b + m.readBits (p + a) b < 2 ^ 16 := by
    rw [Nat.shiftLeft_eq, ← readBits_add]
    exact (readBits_lt m p (a + b)).trans_le (Nat.pow_le_pow_right (by decide) hab)
  apply BitVec.eq_of_toNat_eq
  rw [BitVec.toNat_or, BitVec.toNat_shiftLeft, toNat_ofNat_readBits m p (by omega),
    toNat_ofNat_readBits m (p + a) (by omega), toNat_ofNat_readBits m p hab,
    Nat.mod_eq_of_lt (by omega), ← Nat.shiftLeft_add_eq_or_of_lt hb, Nat.shiftLeft_eq, readBits_add]

/-- Settles O20: both takes answered, so the whole one is within its contract and the buffer. -/
theorem takeBitsSplits : Obligations.TakeBitsSplits := by
  intro c a b x y c1 c2 s hab hfirst hsecond
  obtain ⟨hf, ha, -, ⟨hraised, -⟩ | ⟨hx, -⟩⟩ := takeBits_answers hfirst
  · cases hraised
  obtain ⟨-, -, -, ⟨hraised, -⟩ | ⟨hy, hlen⟩⟩ := takeBits_answers hsecond
  · cases hraised
  cases hx
  cases hy
  rw [ofNat_readBits_add _ _ hab, Nat.add_assoc]
  exact exec_takeBits_ok hf (by omega) hab (by rw [← Nat.add_assoc]; exact hlen)

/-! ### TAKE_BYTES -/

/-- Settles O21: the bytes read are the stretch behind `pre`. -/
theorem takeBytesIsVerbatim : Obligations.TakeBytesIsVerbatim := by
  intro c pre bs post s hf hbytes hpos
  obtain ⟨hlen, -, hread, -⟩ := toBytes_split _ pre bs post hbytes
  have haddr : c.pos / 8 = pre.length := by omega
  rw [exec_takeBytes_ok hf (by omega) (by omega), haddr, hread]

/-- Settles O22: eight bits at a byte boundary are that byte. -/
theorem takeBytesAgreesWithTakeBits : Obligations.TakeBytesAgreesWithTakeBits := by
  intro c n bs c' s h i hi
  obtain ⟨hf, ha, ⟨hraised, -⟩ | ⟨hvalue, hlen⟩⟩ := takeBytes_answers h
  · cases hraised
  cases hvalue
  refine ⟨_, readBytes_getElem? _ _ _ _ hi, ?_⟩
  have haddr : c.pos + 8 * i = 8 * (c.pos / 8 + i) := by omega
  have inside : c.pos + 8 * i + 8 ≤ 8 * (bufOf s c.buf).len := by omega
  rw [exec_takeBits_ok (c := ⟨c.buf, c.pos + 8 * i⟩) hf (by decide) (by decide) inside, haddr,
    readBits_byte, BitVec.ofNat_toNat]

/-! ### A sequence of takes -/

theorem takesAligned_cons (pos : Nat) (t : Take) (rest : List Take) :
    takesAligned pos (t :: rest) = (takesAligned pos [t] && takesAligned (pos + t.size) rest) := by
  cases t <;> simp [takesAligned, Take.size]

/-- One take of a sequence: it hands on the cursor past it, or the sequence ends without one. -/
theorem runTakes_cons {s : State} {t : Take} {c : CursorArg} (rest : List Take) (hf : fits s c = true)
    (hw : ∀ width, t = .bits width → 1 ≤ width ∧ width ≤ 16) :
    runTakes s (t :: rest) c
      = if c.pos + t.size ≤ 8 * (bufOf s c.buf).len ∧ takesAligned c.pos [t] = true then
          runTakes s rest ⟨c.buf, c.pos + t.size⟩
        else none := by
  cases t with
  | bits width =>
    obtain ⟨h1, h16⟩ := hw width rfl
    by_cases hlen : c.pos + width ≤ 8 * (bufOf s c.buf).len
    · rw [if_pos ⟨hlen, rfl⟩, runTakes, Take.instr, exec_takeBits_ok hf h1 h16 hlen]; rfl
    · rw [if_neg (fun h => hlen h.1), runTakes, Take.instr,
        exec_takeBits_short hf h1 h16 (Nat.lt_of_not_le hlen)]; rfl
  | bytes n =>
    by_cases ha : c.pos % 8 = 0
    · by_cases hlen : c.pos + 8 * n ≤ 8 * (bufOf s c.buf).len
      · rw [if_pos ⟨hlen, by simp [takesAligned, ha]⟩, runTakes, Take.instr,
          exec_takeBytes_ok hf ha (by omega)]; rfl
      · rw [if_neg (fun h => hlen h.1), runTakes, Take.instr, exec_takeBytes_short hf ha (by omega)]; rfl
    · rw [if_neg (fun h => ha (by simpa [takesAligned] using h.2)), runTakes, Take.instr,
        exec_takeBytes c n s hf, takeBytes_contract (cursorOf s c) n ha, finish_contract]

/-- A sequence of takes in closed form (rule R71). -/
theorem runTakes_eq {s : State} (takes : List Take) {c : CursorArg} (hf : fits s c = true)
    (hpos : c.pos ≤ 8 * (bufOf s c.buf).len)
    (hw : ∀ width, Take.bits width ∈ takes → 1 ≤ width ∧ width ≤ 16) :
    runTakes s takes c
      = if c.pos + (takes.map Take.size).sum ≤ 8 * (bufOf s c.buf).len ∧
            takesAligned c.pos takes = true then
          some ⟨c.buf, c.pos + (takes.map Take.size).sum⟩
        else none := by
  induction takes generalizing c with
  | nil => rw [if_pos ⟨hpos, rfl⟩]; rfl
  | cons t rest ih =>
    have hfirst : ∀ width, t = .bits width → 1 ≤ width ∧ width ≤ 16 :=
      fun width ht => hw width (ht ▸ List.mem_cons_self)
    rw [runTakes_cons rest hf hfirst]
    simp only [takesAligned_cons c.pos t rest, List.map_cons, List.sum_cons, ← Nat.add_assoc,
      Bool.and_eq_true]
    by_cases h : c.pos + t.size ≤ 8 * (bufOf s c.buf).len ∧ takesAligned c.pos [t] = true
    · rw [if_pos h, ih (c := ⟨c.buf, c.pos + t.size⟩) hf h.1
        (fun width hmem => hw width (List.mem_cons_of_mem t hmem))]
      simp only [h.2, true_and]
    · rw [if_neg h, if_neg]
      rintro ⟨hlen, ha, -⟩
      exact h ⟨by omega, ha⟩

/-- Settles O23: read off the closed form. -/
theorem sequencesOfTakesCompose : Obligations.SequencesOfTakesCompose := by
  intro s takes c hf hpos hw
  rw [runTakes_eq takes hf hpos hw]
  split
  · next h => exact ⟨⟨fun _ => h, fun _ => ⟨_, rfl⟩⟩, fun c' hc => (Option.some.inj hc).symm⟩
  · next h => exact ⟨⟨nofun, fun h' => absurd h' h⟩, nofun⟩

/-! ### Where a returned cursor stands -/

/-- Settles O26: the four calls by what they answer; no other instruction returns a cursor. -/
theorem cursorMovesByWhatIsRead : Obligations.CursorMovesByWhatIsRead := by
  intro i s v c' h
  cases i with
  | takeBits c w =>
    obtain ⟨-, -, -, ⟨⟨⟩, -⟩ | ⟨⟨⟩, hlen⟩⟩ := takeBits_answers h
    exact ⟨c, w, .inl ⟨w, rfl, rfl⟩, rfl, hlen⟩
  | takeBytes c n =>
    obtain ⟨-, ha, ⟨⟨⟩, -⟩ | ⟨⟨⟩, hlen⟩⟩ := takeBytes_answers h
    exact ⟨c, 8 * n, .inr (.inl ⟨n, rfl, rfl⟩), rfl,
      (mul_div_add_of_aligned n ha).ge.trans (Nat.mul_le_mul_left 8 hlen)⟩
  | ethDecode c =>
    obtain ⟨-, ha, ⟨⟨⟩, -⟩ | ⟨⟨⟩, hlen⟩⟩ := ethDecode_answers h
    exact ⟨c, 112, .inr (.inr (.inl ⟨rfl, rfl⟩)), by rw [mul_div_add_of_aligned 14 ha],
      Nat.mul_le_mul_left 8 hlen⟩
  | ipv4Decode c =>
    obtain ⟨-, ha, ⟨⟨⟩, -⟩ | ⟨⟨⟩, hlen⟩⟩ := ipv4Decode_answers h
    exact ⟨c, 160, .inr (.inr (.inr ⟨rfl, rfl⟩)), by rw [mul_div_add_of_aligned 20 ha],
      Nat.mul_le_mul_left 8 hlen⟩
  | parse bytes => exact nomatch congrArg State.returned (parse_next h)
  | opReserved13 => cases h
  | opReserved14 => cases h
  | opReserved15 => cases h
  | _ => exact nomatch answer_inj h

/-- Settles O58: the view by alignment; a decoder returns a cursor a whole number of bytes on. -/
theorem remainingViewExistsExactlyWhenAligned : Obligations.RemainingViewExistsExactlyWhenAligned := by
  refine ⟨fun c ha => ?_, remaining_unaligned, ?_⟩
  · rw [Cursor.remaining, if_pos ha, readBytes_to_end]
  · rintro c s v c' (h | h)
    · obtain ⟨-, -, ⟨⟨⟩, -⟩ | ⟨⟨⟩, -⟩⟩ := ethDecode_answers h
      exact ⟨_, remaining_aligned _ _⟩
    · obtain ⟨-, -, ⟨⟨⟩, -⟩ | ⟨⟨⟩, -⟩⟩ := ipv4Decode_answers h
      exact ⟨_, remaining_aligned _ _⟩

end Sys2Proof.Machine
end

section
/-! PROOFS. How an instruction ends (`60_exceptions.md` rules R140 and R143): why it is refused, that it never
faults, what it writes, and the statements from these. -/

namespace Sys2Proof.Machine

/-- Why a call on a cursor is refused: its operation raised a contract violation, or the buffer given with
it is above `MAX_LEN`. -/
theorem withCursor_refused_why {α : Type} {s : State} {c : CursorArg}
    {r : Cursor → Except ErrorKind (α × Cursor)} {v : α → Value} {x : Refusal}
    (h : withCursor s c (fun cur => s.finish (r cur) v) = .refused x) :
    (x = .contractViolation ∧ fits s c = true ∧ r (cursorOf s c) = .error .contractViolation) ∨
    (x = .inputTooLong ∧ ∃ bound, s.maxLen = some bound) := by
  rcases withCursor_refused h with rfl | hlong
  case inr => exact .inr hlong
  rcases withCursor_cases s c (fun cur => s.finish (r cur) v) with ⟨hf, e⟩ | ⟨-, e⟩
  case inr => rw [e] at h; cases h
  rw [e] at h
  rcases finish_cases s (r (cursorOf s c)) v with ⟨_, _, -, e⟩ | ⟨-, e⟩ | ⟨hr, -⟩
  · rw [e] at h; cases h
  · rw [e] at h; cases h
  · exact .inl ⟨rfl, hf, hr⟩

theorem takeBits_eq_contract {c : Cursor} {w : Nat} (h : takeBits c w = .error .contractViolation) :
    w < 1 ∨ 16 < w := by
  by_contra hw
  by_cases hlen : c.pos + w ≤ 8 * c.buf.len
  · rw [takeBits_ok c w (by omega) (by omega) hlen] at h; cases h
  · rw [takeBits_short c w (by omega) (by omega) (by omega)] at h; cases h

theorem takeBytes_eq_contract {c : Cursor} {n : Nat} (h : takeBytes c n = .error .contractViolation) :
    c.pos % 8 ≠ 0 := by
  intro ha
  by_cases hlen : c.pos / 8 + n ≤ c.buf.len
  · rw [takeBytes_ok c n ha hlen] at h; cases h
  · rw [takeBytes_short c n ha (by omega)] at h; cases h

theorem ethDecode_eq_contract {rom : EtypeRom} {s : State} {c : CursorArg}
    (h : ethDecode rom (cursorOf s c) = .error .contractViolation) : c.pos % 8 ≠ 0 := by
  intro ha
  rw [cursorOf_at s (pos_eq_of_aligned ha)] at h
  by_cases hlen : c.pos / 8 + 14 ≤ (bufOf s c.buf).len
  · rw [ethDecode_ok rom _ _ hlen] at h; cases h
  · rw [ethDecode_short rom _ _ (by omega)] at h; cases h

theorem ipv4Decode_eq_contract {rom : ProtoRom} {s : State} {c : CursorArg}
    (h : ipv4Decode rom (cursorOf s c) = .error .contractViolation) : c.pos % 8 ≠ 0 := by
  intro ha
  rw [cursorOf_at s (pos_eq_of_aligned ha)] at h
  by_cases hlen : c.pos / 8 + 20 ≤ (bufOf s c.buf).len
  · rw [ipv4Decode_ok rom _ _ hlen] at h; cases h
  · rw [ipv4Decode_short rom _ _ (by omega)] at h; cases h

/-- The calls outside their contract (rule R143), on a buffer the block can hold. -/
def OutsideContract (s : State) (i : Instr) : Prop :=
  (∃ c width, i = .takeBits c width ∧ fits s c = true ∧ (width < 1 ∨ 16 < width)) ∨
  (∃ c n, i = .takeBytes c n ∧ fits s c = true ∧ c.pos % 8 ≠ 0) ∨
  (∃ c, i = .ethDecode c ∧ fits s c = true ∧ c.pos % 8 ≠ 0) ∨
  (∃ c, i = .ipv4Decode c ∧ fits s c = true ∧ c.pos % 8 ≠ 0)

/-- Why an instruction is refused: outside its contract, above `MAX_LEN`, or no operation. -/
theorem exec_refused_why {i : Instr} {s : State} {r : Refusal} (h : exec i s = .refused r) :
    (r = .contractViolation ∧ OutsideContract s i) ∨
    (r = .inputTooLong ∧ ∃ bound, s.maxLen = some bound) ∨
    (r = .noSuchOperation 13 ∧ i = .opReserved13) ∨ (r = .noSuchOperation 14 ∧ i = .opReserved14) ∨
    (r = .noSuchOperation 15 ∧ i = .opReserved15) := by
  cases i with
  | takeBits c w =>
    rcases withCursor_refused_why (r := fun cur => takeBits cur w) h with ⟨hr, hf, hc⟩ | hlong
    · exact .inl ⟨hr, .inl ⟨c, w, rfl, hf, takeBits_eq_contract hc⟩⟩
    · exact .inr (.inl hlong)
  | takeBytes c n =>
    rcases withCursor_refused_why (r := fun cur => takeBytes cur n) h with ⟨hr, hf, hc⟩ | hlong
    · exact .inl ⟨hr, .inr (.inl ⟨c, n, rfl, hf, takeBytes_eq_contract (c := cursorOf s c) hc⟩)⟩
    · exact .inr (.inl hlong)
  | ethDecode c =>
    rcases withCursor_refused_why h with ⟨hr, hf, hc⟩ | hlong
    · exact .inl ⟨hr, .inr (.inr (.inl ⟨c, rfl, hf, ethDecode_eq_contract hc⟩))⟩
    · exact .inr (.inl hlong)
  | ipv4Decode c =>
    rcases withCursor_refused_why h with ⟨hr, hf, hc⟩ | hlong
    · exact .inl ⟨hr, .inr (.inr (.inr ⟨c, rfl, hf, ipv4Decode_eq_contract hc⟩))⟩
    · exact .inr (.inl hlong)
  | parse bytes =>
    cases hroom : s.admits bytes.length with
    | true => rw [exec, execParse_admitted bytes s hroom] at h; cases h
    | false =>
      refine .inr (.inl ⟨?_, ?_⟩)
      · simpa [exec, execParse, hroom, eq_comm] using h
      · by_contra hnone
        rw [admits_iff.mpr (fun bound hbound => absurd ⟨bound, hbound⟩ hnone)] at hroom
        cases hroom
  | opReserved13 => cases h; exact .inr (.inr (.inl ⟨rfl, rfl⟩))
  | opReserved14 => cases h; exact .inr (.inr (.inr (.inl ⟨rfl, rfl⟩)))
  | opReserved15 => cases h; exact .inr (.inr (.inr (.inr ⟨rfl, rfl⟩)))
  | _ => cases h

theorem exec_of_outsideContract {i : Instr} {s : State} (h : OutsideContract s i) :
    exec i s = .refused .contractViolation := by
  rcases h with ⟨c, w, rfl, hf, hw⟩ | ⟨c, n, rfl, hf, ha⟩ | ⟨c, rfl, hf, ha⟩ | ⟨c, rfl, hf, ha⟩
  · rw [exec_takeBits c w s hf, takeBits_contract _ _ hw, finish_contract]
  · rw [exec_takeBytes c n s hf, takeBytes_contract _ _ ha, finish_contract]
  · rw [exec_ethDecode c s hf, ethDecode_contract _ _ ha, finish_contract]
  · rw [exec_ipv4Decode c s hf, ipv4Decode_contract _ _ ha, finish_contract]

/-- Settles O25: of the reasons for a refusal, those under the two names. -/
theorem contractViolationExactlyOutsideContract : Obligations.ContractViolationExactlyOutsideContract := by
  refine fun i s => ⟨⟨fun h => ?_, exec_of_outsideContract⟩, fun op => ⟨fun h => ?_, ?_⟩⟩
  · rcases exec_refused_why h with ⟨-, hout⟩ | ⟨⟨⟩, -⟩ | ⟨⟨⟩, -⟩ | ⟨⟨⟩, -⟩ | ⟨⟨⟩, -⟩
    exact hout
  · rcases exec_refused_why h with ⟨⟨⟩, -⟩ | ⟨⟨⟩, -⟩ | ⟨⟨⟩, hi⟩ | ⟨⟨⟩, hi⟩ | ⟨⟨⟩, hi⟩
    · exact .inl ⟨rfl, hi⟩
    · exact .inr (.inl ⟨rfl, hi⟩)
    · exact .inr (.inr ⟨rfl, hi⟩)
  · rintro (⟨rfl, rfl⟩ | ⟨rfl, rfl⟩ | ⟨rfl, rfl⟩)
    · rfl
    · rfl
    · rfl

theorem exec_ne_fault (i : Instr) (s : State) (f : Fault) : exec i s ≠ .fault f := by
  intro h
  rcases exec_cases i s with ⟨_, -, e⟩ | ⟨_, e⟩ | ⟨_, e⟩
  · rw [e] at h; cases h
  · rw [e] at h; cases h
  · rw [e] at h; cases h

/-- Settles O57: no fault by `exec_cases`, the refusals by `exec_refused_why`. -/
theorem instructionsStopOnlyAsTheSpecNames : Obligations.InstructionsStopOnlyAsTheSpecNames := by
  refine fun i s => ⟨exec_ne_fault i s, fun r h => ?_⟩
  rcases exec_refused_why h with ⟨hr, -⟩ | hrest
  · exact .inl hr
  · exact .inr hrest

/-- Settles O56: PARSE writes its record, every other instruction the returned value alone. -/
theorem onlyParseWritesRegisters : Obligations.OnlyParseWritesRegisters := by
  intro i s t h
  rcases exec_cases i s with ⟨bytes, hi, e⟩ | ⟨r, e⟩ | ⟨r, e⟩
  · rw [e] at h; cases h
    exact ⟨⟨rfl, rfl, rfl⟩, .inl ⟨bytes, hi⟩⟩
  · rw [e] at h; cases h
    exact ⟨⟨rfl, rfl, rfl⟩, .inr (sameRegisters_setReturned s r)⟩
  · rw [e] at h; cases h

end Sys2Proof.Machine
end

section
/-! PROOFS. The header decoders, the lookup tables and the fragmentation words (`41_lookup_tables.md`,
`42_fragmentation.md`, `43_ethernet.md`, `44_ipv4.md`): the headers of a stretch of bytes, the rows of the
two tables, what survives the decoding of a fragmentation word, and the statements from these. -/

namespace Sys2Proof.Machine

/-! ### The header decoders -/

/-- Settles O27: the fourteen bytes stand at `pre.length`, and the header there is the layout's. -/
theorem ethDecodeReadsTheLayout : Obligations.EthDecodeReadsTheLayout := by
  intro c pre post d0 d1 d2 d3 d4 d5 s0 s1 s2 s3 s4 s5 t1 t0 s hf hpos hbytes
  obtain ⟨hlen, -, hread, hpost⟩ := toBytes_split _ pre _ post hbytes
  simp only [List.length_cons, List.length_nil, Nat.reduceAdd] at hlen hread hpost
  refine ⟨?header, ?view⟩
  case header =>
    rw [exec_ethDecode_ok hf hpos (by omega), ethHeaderAt_layout (h := hread)]
  case view =>
    have hafter : c.pos + 112 = 8 * (pre.length + 14) := by omega
    have hrest : (bufOf s c.buf).len - (pre.length + 14) = post.length := by omega
    rw [hafter, remaining_aligned, hrest, hpost]

/-- Settles O28: the twenty bytes stand at `pre.length`, and the header there is the layout's. -/
theorem ipv4DecodeReadsTheLayout : Obligations.Ipv4DecodeReadsTheLayout := by
  intro c pre post a0 a1 l1 l0 i1 i0 f1 f0 ttl pc c1 c0 s0 s1 s2 s3 d0 d1 d2 d3 s hf hpos hbytes
  obtain ⟨hlen, -, hread, hpost⟩ := toBytes_split _ pre _ post hbytes
  simp only [List.length_cons, List.length_nil, Nat.reduceAdd] at hlen hread hpost
  refine ⟨?header, ?view⟩
  case header =>
    rw [exec_ipv4Decode_ok hf hpos (by omega), ipv4HeaderAt_layout (h := hread)]
  case view =>
    have hafter : c.pos + 160 = 8 * (pre.length + 20) := by omega
    have hrest : (bufOf s c.buf).len - (pre.length + 20) = post.length := by omega
    rw [hafter, remaining_aligned, hrest, hpost]

theorem exec_ethHdr (destination source : MacAddr) (code : U16) (s : State) :
    exec (.ethHdr destination source code) s = .next (s.setReturned
      (.value (.ethHeader ⟨destination, source, etypeLookup s.roms.etype code⟩))) := rfl

theorem exec_ipv4Hdr (w : Ipv4Wire) (s : State) : exec (.ipv4Hdr w) s
    = .next (s.setReturned (.value (.ipv4Header (headerOfWire s.roms.proto w)))) := rfl

theorem exec_ipv4W0 (v l : BitVec 4) (d : BitVec 6) (e : BitVec 2) (s : State) :
    exec (.ipv4W0 v l d e) s = .next (s.setReturned (.value (.word0 ⟨v, l, d, e⟩))) := rfl

/-- Settles O29: one equation per row. -/
theorem headerRowsReturnRecords : Obligations.HeaderRowsReturnRecords :=
  fun s => ⟨fun _ _ _ => exec_ethHdr _ _ _ s, fun w => exec_ipv4Hdr w s,
    fun _ _ _ _ => exec_ipv4W0 _ _ _ _ s⟩

/-- The stretch `mid` of a buffer made of a byte sequence. -/
theorem readBytes_ofBytes_middle (pre mid post : List Byte) :
    (Memory.ofBytes (pre ++ mid ++ post)).readBytes pre.length mid.length = mid := by
  obtain ⟨-, -, hread, -⟩ := toBytes_split _ pre mid post (toBytes_ofBytes (pre ++ mid ++ post))
  exact hread

theorem readBytes_ofBytes_append (hdr post : List Byte) :
    (Memory.ofBytes (hdr ++ post)).readBytes 0 hdr.length = hdr :=
  readBytes_ofBytes_middle [] hdr post

/-- Settles O15: both headers are the one at address 0 of the given buffer. -/
theorem ethWireFormAgreesWithDecoder : Obligations.EthWireFormAgreesWithDecoder := by
  intro s hdr post hlen hf
  have inside : 0 + 14 ≤ (Memory.ofBytes (hdr ++ post)).len := by simp [hlen]
  have wire := decodeEthHdr_readBytes (Memory.ofBytes (hdr ++ post)) 0
  rw [← hlen, readBytes_ofBytes_append] at wire
  exact ⟨_, ethHeaderAt s.roms.etype (Memory.ofBytes (hdr ++ post)) 0, wire, exec_ethHdr _ _ _ s,
    exec_ethDecode_ok hf rfl inside⟩

/-- Settles O16: both headers are the one at address 0 of the given buffer. -/
theorem ipv4WireFormAgreesWithDecoder : Obligations.Ipv4WireFormAgreesWithDecoder := by
  intro s hdr post hlen hf
  have inside : 0 + 20 ≤ (Memory.ofBytes (hdr ++ post)).len := by simp [hlen]
  have wire := decodeIpv4Hdr_readBytes (Memory.ofBytes (hdr ++ post)) 0
  rw [← hlen, readBytes_ofBytes_append] at wire
  exact ⟨_, ipv4HeaderAt s.roms.proto (Memory.ofBytes (hdr ++ post)) 0, wire, exec_ipv4Hdr _ s,
    exec_ipv4Decode_ok hf rfl inside⟩

/-! ### The lookup tables -/

theorem protoCode_protoLookup (rom : ProtoRom) (code : Byte) :
    protoCode rom (protoLookup rom code) = code := by
  by_cases hi : code = rom.icmp
  · rw [hi, protoLookup_icmp, protoCode]
  by_cases ht : code = rom.tcp
  · rw [ht, protoLookup_tcp (ht ▸ hi), protoCode]
  by_cases hu : code = rom.udp
  · rw [hu, protoLookup_udp (hu ▸ hi) (hu ▸ ht), protoCode]
  · rw [protoLookup_unknown hi ht hu, protoCode]

/-- Settles O32: PROTO_CODE kind by kind, and `protoCode_protoLookup`. -/
theorem protoCodeUndoesProtoLookup : Obligations.ProtoCodeUndoesProtoLookup := by
  refine ⟨fun s => ⟨exec_protoCode _ s, exec_protoCode _ s, exec_protoCode _ s,
      fun code => exec_protoCode _ s⟩,
    fun code s => ⟨protoLookup s.roms.proto code, exec_protoLookup code s, ?_⟩⟩
  rw [exec_protoCode, protoCode_protoLookup]

theorem exec_etypeUnknown (code : U16) (s : State) : exec (.etypeUnknown code) s
    = .next (s.setReturned (.value (.payloadKind (etypeLookup s.roms.etype code)))) := rfl

theorem exec_protoUnknown (code : Byte) (s : State) : exec (.protoUnknown code) s
    = .next (s.setReturned (.value (.protocolKind (protoLookup s.roms.proto code)))) := rfl

/-- Settles O33: the key rows by exec, the default rows by the lookup of a code that is no key. -/
theorem tableRowsReturnKinds : Obligations.TableRowsReturnKinds := by
  refine fun s => ⟨rfl, rfl, fun code hwf => ?_, rfl, rfl, rfl, fun code hwf => ?_⟩
  · simp only [Instr.wellFormed, Bool.and_eq_true, decide_eq_true_eq] at hwf
    obtain ⟨h4, h6⟩ := hwf
    rw [exec_etypeUnknown, etypeLookup_unknown h4 h6]
  · simp only [Instr.wellFormed, Bool.and_eq_true, decide_eq_true_eq] at hwf
    obtain ⟨⟨hi, ht⟩, hu⟩ := hwf
    rw [exec_protoUnknown, protoLookup_unknown hi ht hu]

/-- The row of an ethertype code executes as the lookup of that code. -/
theorem exec_instrOfEtypeCode (code : U16) (s : State) :
    exec (instrOfEtypeCode s.roms.etype code) s = exec (.etypeLookup code) s := by
  rw [exec_etypeLookup, instrOfEtypeCode, etypeLookup]
  split
  · rfl
  · split
    · rfl
    · next h4 h6 => rw [exec_etypeUnknown, etypeLookup_unknown h4 h6]

/-- The row of a protocol code executes as the lookup of that code. -/
theorem exec_instrOfProtoCode (code : Byte) (s : State) :
    exec (instrOfProtoCode s.roms.proto code) s = exec (.protoLookup code) s := by
  rw [exec_protoLookup, instrOfProtoCode, protoLookup]
  split
  · rfl
  · split
    · rfl
    · split
      · rfl
      · next hi ht hu => rw [exec_protoUnknown, protoLookup_unknown hi ht hu]

/-- Settles O34: the bytes are those of the code, whose row executes as the lookup. -/
theorem codeWordsAgreeWithLookups : Obligations.CodeWordsAgreeWithLookups := by
  refine fun s _ => ⟨fun code => ⟨_, ?_, exec_instrOfEtypeCode code s⟩,
    fun code => ⟨_, rfl, exec_instrOfProtoCode code s⟩⟩
  change decodeWord .etypeCode (fun w => .ok (instrOfEtypeCode s.roms.etype w)) [hi8 code, lo8 code] = _
  rw [decodeWord_be16, be16_hi8_lo8]

/-! ### The fragmentation words -/

/-- Settles O39: the rows by exec, the word of the last one by `fragEncode_fragmented_toNat`. -/
theorem fragmentationRowsReturn : Obligations.FragmentationRowsReturn :=
  fun _ _ more offset => ⟨rfl, rfl, rfl, _, rfl, fragEncode_fragmented_toNat more offset⟩

/-- The don't-fragment bit as a number. -/
theorem fragDont_iff (w : U16) : fragDont w = true ↔ w.toNat / 16384 % 2 = 1 := by
  rw [(fragSlices_toNat w).1, decide_eq_true_iff]

theorem fragEncode_fragDecode_of_dont {w : U16} (hdont : fragDont w = true) :
    fragEncode (fragDecode w) = 0x4000#16 := by
  rw [fragDecode_dont hdont, fragEncode]

/-- With don't-fragment clear, re-encoding clears the reserved bit and keeps the rest (rule R95). -/
theorem fragEncode_fragDecode_of_not_dont {w : U16} (hdont : fragDont w = false) :
    (fragEncode (fragDecode w)).toNat = w.toNat % 16384 := by
  have htop : ¬ w.toNat / 16384 % 2 = 1 := by rw [← fragDont_iff, hdont]; decide
  obtain ⟨-, hmore, hoffset⟩ := fragSlices_toNat w
  rw [fragDecode_not_dont hdont, fragEncode_fragmented_toNat, hmore, hoffset]
  by_cases hbit : w.toNat / 8192 % 2 = 1
  · simp only [hbit, decide_true, Bool.toNat_true]; omega
  · simp only [hbit, decide_false, Bool.toNat_false]; omega

theorem fragEncode_fragDecode_eq_iff (w : U16) :
    fragEncode (fragDecode w) = w ↔ w = 0x4000#16 ∨ w.toNat ≤ 0x3FFF := by
  cases hdont : fragDont w with
  | true =>
    have hbit := (fragDont_iff w).mp hdont
    rw [fragEncode_fragDecode_of_dont hdont]
    exact ⟨fun h => .inl h.symm, fun h => h.elim Eq.symm (fun hle => by omega)⟩
  | false =>
    have hne : w ≠ 0x4000#16 := by rintro rfl; cases hdont
    have hbit : ¬ w.toNat / 16384 % 2 = 1 := by rw [← fragDont_iff, hdont]; decide
    have hlt := w.isLt
    rw [← BitVec.toNat_inj, fragEncode_fragDecode_of_not_dont hdont]
    constructor
    · intro h; right; omega
    · rintro (h | h)
      · exact absurd h hne
      · omega

/-- Settles O38: the re-encoded word by the don't-fragment bit. -/
theorem fragmentationWordsThatSurvive : Obligations.FragmentationWordsThatSurvive := by
  intro w s
  refine ⟨fragDecode w, fragEncode (fragDecode w), exec_fragDecode w s, exec_fragEncode _ s,
    fragEncode_fragDecode_eq_iff w, fragEncode_fragDecode_of_dont, fun hdont _ => ?_⟩
  apply BitVec.eq_of_toNat_eq
  rw [fragEncode_fragDecode_of_not_dont hdont, BitVec.toNat_and]
  exact (Nat.and_two_pow_sub_one_eq_mod w.toNat 14).symm

end Sys2Proof.Machine
end

section
/-! PROOFS. What the checksum detects (`45_checksum.md` rules R125 to R129): the single-pass formula, the
bound of the sum, the validator on sums that fold alike and on sums that do not, and the statements from
these. -/

namespace Sys2Proof.Machine

/-- Settles O48: each row returns the joined word of its two bytes. -/
theorem checksumRowsReturnWords : Obligations.ChecksumRowsReturnWords :=
  fun _ a b => ⟨_, _, rfl, rfl, joinBytes_toNat a b, joinBytes_toNat a b⟩

/-- The original code's formula is one pass, cut to 16 bits. -/
theorem singlePass_eq (n : Nat) : (n / 2 ^ 16 + n % 2 ^ 16) % 2 ^ 16 = onePass n % 2 ^ 16 := by
  rw [onePass, Nat.add_comm]

theorem onePass_of_no_carry {n : Nat} (h : n ≤ 0xFFFF) : onePass n = n := by
  have hlt : n < 2 ^ 16 := Nat.lt_succ_of_le h
  rw [onePass, Nat.mod_eq_of_lt hlt, Nat.div_eq_of_lt hlt, Nat.add_zero]

/-- A pass that carries once leaves 16 bits and a carry of 1, which the fold adds and the formula drops. -/
theorem csumFold_eq_singlePass_iff (x : U32) :
    (csumFold x).toNat = onePass x.toNat % 2 ^ 16 ↔ onePass x.toNat < 2 ^ 16 := by
  have hx := x.isLt
  by_cases hsmall : x.toNat ≤ 0xFFFF
  · have hlt : x.toNat < 2 ^ 16 := Nat.lt_succ_of_le hsmall
    rw [csumFold_toNat_of_no_carry hsmall, onePass_of_no_carry hsmall, Nat.mod_eq_of_lt hlt]
    exact iff_of_true rfl hlt
  by_cases hpass : onePass x.toNat ≤ 0xFFFF
  · rw [csumFold_toNat_of_carry_once (by omega) hpass]
    omega
  · rw [csumFold_toNat_of_carry_twice (by omega) (by omega)]
    have hbound : onePass x.toNat < 2 ^ 17 := by rw [onePass]; omega
    generalize onePass x.toNat = p at *
    rw [onePass]
    omega

/-- Settles O42: the formula is one pass cut to 16 bits. -/
theorem singlePassFoldDiffersOnCarry : Obligations.SinglePassFoldDiffersOnCarry := by
  intro x s
  refine ⟨csumFold x, exec_csumFold x s, ?_⟩
  rw [singlePass_eq, csumFold_eq_singlePass_iff, onePass, Nat.add_comm]

/-- W3 is part of the sum, and the eight other words have 16 bits. -/
theorem csumSum_bounds (w : CsumWords) :
    w.w3.toNat ≤ (csumSum w).toNat ∧ (csumSum w).toNat ≤ w.w3.toNat + 8 * 0xFFFF := by
  rw [csumSum_toNat]
  have h0 := w.w0.isLt
  have h1 := w.w1.isLt
  have h2 := w.w2.isLt
  have h4 := w.w4.isLt
  have h5 := w.w5.isLt
  have h6 := w.w6.isLt
  have h7 := w.w7.isLt
  have h8 := w.w8.isLt
  omega

/-- Settles O43: eight words of 16 bits and a W3 of at most 0x4000. -/
theorem checksumSumIsBounded : Obligations.ChecksumSumIsBounded := by
  intro h s
  refine ⟨csumWords s.roms.proto h, exec_csumWords h s, fragEncode_le h.fragmentation, ?_⟩
  have hw3 : (csumWords s.roms.proto h).w3.toNat ≤ 0x4000 := fragEncode_le h.fragmentation
  have hsum := (csumSum_bounds (csumWords s.roms.proto h)).2
  rw [sum_toList]
  omega

/-! ### The validator -/

theorem words_of_exec {h : IPV4Header} {s : State} {w : CsumWords}
    (hw : exec (.csumWords h) s = .next (s.setReturned (.value (.words w)))) :
    w = csumWords s.roms.proto h := by
  rw [exec_csumWords] at hw
  cases answer_inj hw
  rfl

theorem flag_of_exec {h : IPV4Header} {s : State} {b : Bool}
    (hb : exec (.csumValidate h) s = .next (s.setReturned (.value (.flag b)))) :
    csumValidate s.roms.proto h = b := by
  rw [exec_csumValidate] at hb
  cases answer_inj hb
  rfl

theorem folded_of_exec {sum : U32} {s : State} {folded : U16}
    (hf : exec (.csumFold sum) s = .next (s.setReturned (.value (.word16 folded)))) :
    folded = csumFold sum := by
  rw [exec_csumFold] at hf
  cases answer_inj hf
  rfl

theorem csumFold_of_multiple {x : U32} (hne : x.toNat ≠ 0) (hmod : x.toNat % 0xFFFF = 0) :
    csumFold x = 0xFFFF#16 := by
  obtain ⟨hresidue, hzero⟩ := csumFold_spec x
  have hlt := (csumFold x).isLt
  apply BitVec.eq_of_toNat_eq
  rw [BitVec.toNat_ofNat]
  omega

/-- Settles O45: the words fold to 0xFFFF, whose complement is 0x0000. -/
theorem validityIsPatternEquality : Obligations.ValidityIsPatternEquality := by
  intro h s w hw hne hmod
  rw [sum_toList] at hne hmod
  have hcomputed : csumComputed s.roms.proto h = 0 := by
    rw [csumComputed, ← words_of_exec hw, csumFold_of_multiple hne hmod]; rfl
  rw [exec_csumValidate, csumValidate, hcomputed]
  simp only [eq_comm]

/-- Sums less than 0xFFFF apart have different residues, so they fold apart. -/
theorem csumFold_ne_of_lt {x y : U32} (hlow : x.toNat < y.toNat) (hhigh : y.toNat < x.toNat + 0xFFFF) :
    csumFold x ≠ csumFold y := by
  intro h
  obtain ⟨hresidue, -⟩ := (csumFold_eq_iff x y).mp h
  omega

/-- A header whose words fold unlike a sum that its stored checksum is right for is invalid. -/
theorem csumValidate_eq_false_of_fold_ne {rom : ProtoRom} {h : IPV4Header} {folded : U16}
    (hstored : 0xFFFF - folded.toNat = h.headerChecksum.toNat)
    (hne : csumFold (csumSum (csumWords rom h)) ≠ folded) : csumValidate rom h = false := by
  rw [← Bool.not_eq_true, csumValidate_iff]
  intro hvalid
  have hlt := (csumFold (csumSum (csumWords rom h))).isLt
  have hlt' := folded.isLt
  exact hne (BitVec.eq_of_toNat_eq (by omega))

/-! ### A flipped bit -/

theorem toList_flip (w : CsumWords) {j k : Nat} (hj : j < 9) :
    (w.flip j k).toList = w.toList.modify j (· ^^^ (1#16 <<< k)) := by
  interval_cases j <;> rfl

/-- Flipping bit `k` of one word of a list changes the sum by `2^k`. -/
theorem sum_modify_flip {k : Nat} (hk : k < 16) : ∀ (words : List U16) (j : Nat), j < words.length →
    ((words.modify j (· ^^^ (1#16 <<< k))).map BitVec.toNat).sum = (words.map BitVec.toNat).sum + 2 ^ k ∨
    ((words.modify j (· ^^^ (1#16 <<< k))).map BitVec.toNat).sum + 2 ^ k = (words.map BitVec.toNat).sum
  | [], _, hj => absurd hj (Nat.not_lt_zero _)
  | w :: rest, 0, _ => by
    have hflip := toNat_flip_bit w k hk
    simp only [List.modify_zero_cons, List.map_cons, List.sum_cons]
    omega
  | w :: rest, j + 1, hj => by
    have ih := sum_modify_flip hk rest j (Nat.lt_of_succ_lt_succ hj)
    simp only [List.modify_succ_cons, List.map_cons, List.sum_cons]
    omega

theorem csumSum_flip (w : CsumWords) {j k : Nat} (hj : j < 9) (hk : k < 16) :
    (csumSum (w.flip j k)).toNat = (csumSum w).toNat + 2 ^ k ∨
    (csumSum (w.flip j k)).toNat + 2 ^ k = (csumSum w).toNat := by
  have hsum := sum_modify_flip hk w.toList j hj
  rwa [← toList_flip w hj, sum_toList, sum_toList] at hsum

theorem csumFold_flip_ne (w : CsumWords) {j k : Nat} (hj : j < 9) (hk : k < 16) :
    csumFold (csumSum (w.flip j k)) ≠ csumFold (csumSum w) := by
  have hpos : 0 < 2 ^ k := Nat.two_pow_pos k
  have hle : 2 ^ k ≤ 2 ^ 15 := Nat.pow_le_pow_right (by decide) (by omega)
  rcases csumSum_flip w hj hk with hup | hdown
  · exact (csumFold_ne_of_lt (by omega) (by omega)).symm
  · exact csumFold_ne_of_lt (by omega) (by omega)

/-- Settles O46: the flipped words fold to another value than the one the stored checksum complements. -/
theorem anySingleBitFlipIsDetected : Obligations.AnySingleBitFlipIsDetected := by
  intro h s w j k hj hk hw hvalid
  have hwords := words_of_exec hw
  have hflag := flag_of_exec hvalid
  have hstored : 0xFFFF - (csumFold (csumSum w)).toNat = h.headerChecksum.toNat := by
    rw [hwords]; exact (csumValidate_iff _ h).mp hflag
  have hne := csumFold_flip_ne w hj hk
  refine ⟨⟨csumFold (csumSum (w.flip j k)), ?sum, ?complement⟩, fun h' hw' hsame => ?header,
    fun c hc => ?stored⟩
  case sum => rw [ofNat_sum_toList, exec_csumFold]
  case complement =>
    intro heq
    have hlt := (csumFold (csumSum w)).isLt
    have hlt' := (csumFold (csumSum (w.flip j k))).isLt
    exact hne (BitVec.eq_of_toNat_eq (by omega))
  case header =>
    rw [← hsame] at hstored
    rw [words_of_exec hw'] at hne
    rw [exec_csumValidate, csumValidate_eq_false_of_fold_ne hstored hne]
  case stored =>
    have hcomputed : csumComputed s.roms.proto h = h.headerChecksum := of_decide_eq_true hflag
    have hother : csumComputed s.roms.proto { h with headerChecksum := c } ≠ c :=
      fun heq => hc (heq.symm.trans hcomputed)
    rw [exec_csumValidate, csumValidate, decide_eq_false hother]

/-! ### A non-canonical fragmentation word -/

/-- A wire's fragmentation word that is not the re-encoded one exceeds it by less than 0xFFFF (rule R95). -/
theorem fragWire_sub_reencoded (r f m : Bool) (o : BitVec 13)
    (hne : fragWire r f m o ≠ fragEncode (fragOfFields f m o)) :
    (fragEncode (fragOfFields f m o)).toNat < (fragWire r f m o).toNat ∧
      (fragWire r f m o).toNat < (fragEncode (fragOfFields f m o)).toNat + 0xFFFF := by
  rw [Ne, ← BitVec.toNat_inj] at hne
  have hlt := (fragWire r f m o).isLt
  rw [fragWire_toNat] at hne hlt ⊢
  cases f with
  | true =>
    have hcanon : (fragEncode (fragOfFields true m o)).toNat = 16384 := rfl
    rw [hcanon] at hne ⊢
    simp only [Bool.toNat_true] at hne hlt ⊢
    omega
  | false =>
    have hcanon : (fragEncode (fragOfFields false m o)).toNat = m.toNat * 8192 + o.toNat :=
      fragEncode_fragmented_toNat m o
    have hr : r.toNat ≤ 1 := Bool.toNat_le r
    rw [hcanon] at hne ⊢
    simp only [Bool.toNat_false] at hne hlt ⊢
    omega

/-- The same of a wire header and the word W3 of its record. -/
theorem fragWire_sub_w3 {rom : ProtoRom} {wire : Ipv4Wire}
    (hne : fragWire wire.reserved wire.dontFragment wire.moreFragments wire.offset
      ≠ (csumWords rom (headerOfWire rom wire)).w3) :
    (csumWords rom (headerOfWire rom wire)).w3.toNat
        < (fragWire wire.reserved wire.dontFragment wire.moreFragments wire.offset).toNat ∧
      (fragWire wire.reserved wire.dontFragment wire.moreFragments wire.offset).toNat
        < (csumWords rom (headerOfWire rom wire)).w3.toNat + 0xFFFF :=
  fragWire_sub_reencoded _ _ _ _ hne

/-- The sum of a header's words with another word in the place of W3. -/
theorem toNat_sum_replace_w3 (w : CsumWords) (onWire : U16) :
    (BitVec.ofNat 32 ((w.toList.map BitVec.toNat).sum - w.w3.toNat + onWire.toNat)).toNat
      = (csumSum w).toNat - w.w3.toNat + onWire.toNat := by
  have hbounds := csumSum_bounds w
  have hlt := onWire.isLt
  rw [sum_toList, BitVec.toNat_ofNat, Nat.mod_eq_of_lt (by omega)]

/-- Settles O47: the wire's sum exceeds the header's by less than 0xFFFF, so the two fold apart. -/
theorem wireChecksumOfNonCanonicalHeaderIsInvalid :
    Obligations.WireChecksumOfNonCanonicalHeaderIsInvalid := by
  intro wire h w folded s hrow hw hfrag hfold hstored
  cases answer_inj hrow
  cases words_of_exec hw
  cases folded_of_exec hfold
  obtain ⟨hlow, hhigh⟩ := fragWire_sub_w3 hfrag
  have hbounds := csumSum_bounds (csumWords s.roms.proto (headerOfWire s.roms.proto wire))
  have hsum := toNat_sum_replace_w3 (csumWords s.roms.proto (headerOfWire s.roms.proto wire))
    (fragWire wire.reserved wire.dontFragment wire.moreFragments wire.offset)
  rw [exec_csumValidate, csumValidate_eq_false_of_fold_ne (h := headerOfWire s.roms.proto wire) hstored]
  exact csumFold_ne_of_lt (by omega) (by omega)

end Sys2Proof.Machine
end

section
/-! PROOFS. PARSE (`46_parse.md` rules R39, R130 and R131): the whole next state by the length of the input,
which bytes of the input each header is read from, and the statements from these. -/

namespace Sys2Proof.Machine

theorem exec_parse {bytes : List Byte} {s : State} (h : s.admits bytes.length = true) :
    exec (.parse bytes) s
      = .next (s.setRecord (Memory.ofBytes bytes) (parseRecord s.roms (Memory.ofBytes bytes))) :=
  execParse_admitted bytes s h

/-- The remainder after a transaction: the input from `REM_START` on (rule R23). -/
theorem remainder_setRecord (s : State) (bytes : List Byte) (r : Record) :
    (s.setRecord (Memory.ofBytes bytes) r).remainder = bytes.drop r.remStart := by
  rw [remainder_eq_drop, setRecord_buf, setRecord_result, toBytes_ofBytes]

/-- Settles O49: the record of a failed Ethernet stage. -/
theorem parseOfFewerThan14Bytes : Obligations.ParseOfFewerThan14Bytes := by
  intro bytes s hroom hlen
  refine ⟨_, exec_parse hroom, ?_, ?_⟩
  · rw [parseRecord_short s.roms _ hlen]; rfl
  · rw [remainder_setRecord, parseRecord_short s.roms _ hlen]; rfl

/-- Settles O50: the record of a failed IPv4 stage, the Ethernet header that of the first bytes. -/
theorem parseOf14To33Bytes : Obligations.ParseOf14To33Bytes := by
  rintro d0 d1 d2 d3 d4 d5 s0 s1 s2 s3 s4 s5 t1 t0 rest bytes s rfl hroom hrest
  have heth := ethHeaderAt_layout s.roms.etype _ 0 (h := readBytes_ofBytes_append
    [d0, d1, d2, d3, d4, d5, s0, s1, s2, s3, s4, s5, t1, t0] rest)
  have hrecord := parseRecord_ethOnly s.roms
    (Memory.ofBytes ([d0, d1, d2, d3, d4, d5, s0, s1, s2, s3, s4, s5, t1, t0] ++ rest))
    (by simp) (by simp; omega)
  refine ⟨_, exec_parse hroom, ?_, ?_⟩
  · rw [hrecord, ← heth]; rfl
  · rw [remainder_setRecord, hrecord]; rfl

/-- Settles O51: the record of two stages that succeed, the headers those of the first 34 bytes. -/
theorem parseOf34BytesOrMore : Obligations.ParseOf34BytesOrMore := by
  rintro d0 d1 d2 d3 d4 d5 s0 s1 s2 s3 s4 s5 t1 t0
    a0 a1 l1 l0 i1 i0 f1 f0 ttl pc c1 c0 p0 p1 p2 p3 q0 q1 q2 q3 rest bytes s rfl hroom
  have heth := ethHeaderAt_layout s.roms.etype _ 0 (h := readBytes_ofBytes_append
    [d0, d1, d2, d3, d4, d5, s0, s1, s2, s3, s4, s5, t1, t0]
      ([a0, a1, l1, l0, i1, i0, f1, f0, ttl, pc, c1, c0, p0, p1, p2, p3, q0, q1, q2, q3] ++ rest))
  have hip4 := ipv4HeaderAt_layout s.roms.proto _ 14 (h := readBytes_ofBytes_middle
    [d0, d1, d2, d3, d4, d5, s0, s1, s2, s3, s4, s5, t1, t0]
      [a0, a1, l1, l0, i1, i0, f1, f0, ttl, pc, c1, c0, p0, p1, p2, p3, q0, q1, q2, q3] rest)
  have hrecord := parseRecord_both s.roms
    (Memory.ofBytes ([d0, d1, d2, d3, d4, d5, s0, s1, s2, s3, s4, s5, t1, t0]
      ++ [a0, a1, l1, l0, i1, i0, f1, f0, ttl, pc, c1, c0, p0, p1, p2, p3, q0, q1, q2, q3] ++ rest))
    (by simp)
  refine ⟨_, _, exec_parse hroom, exec_csumValidate _ s, ?_, ?_⟩
  · rw [hrecord, ← heth, ← hip4]; rfl
  · rw [remainder_setRecord, hrecord]; rfl

/-- Settles O52: an admitted input is parsed into a coherent record, a longer one is refused. -/
theorem parseGivesARecordOnEveryInput : Obligations.ParseGivesARecordOnEveryInput := by
  refine fun bytes s => ⟨fun hbound => ?_, fun bound hmax hlong => ?_⟩
  · exact ⟨_, exec_parse (admits_iff.mpr hbound), rfl, toBytes_ofBytes bytes,
      coherent_parseRecord s.roms (Memory.ofBytes bytes)⟩
  · have hroom : s.admits bytes.length = false := by
      rw [State.admits, hmax]; exact decide_eq_false (Nat.not_le_of_lt hlong)
    rw [exec, execParse, hroom, if_neg Bool.false_ne_true]

/-! ### Which bytes the headers are read from -/

theorem ethHeaderAt_congr (rom : EtypeRom) {m m' : Memory} {a a' : Nat}
    (h : m.readBytes a 14 = m'.readBytes a' 14) : ethHeaderAt rom m a = ethHeaderAt rom m' a' := by
  have wire := decodeEthHdr_readBytes m a
  rw [h, decodeEthHdr_readBytes m' a'] at wire
  injection wire with hinstr
  injection hinstr with hdestination hsource hcode
  rw [ethHeaderAt, ethHeaderAt, hdestination, hsource, hcode]

theorem ipv4HeaderAt_congr (rom : ProtoRom) {m m' : Memory} {a a' : Nat}
    (h : m.readBytes a 20 = m'.readBytes a' 20) : ipv4HeaderAt rom m a = ipv4HeaderAt rom m' a' := by
  have wire := decodeIpv4Hdr_readBytes m a
  rw [h, decodeIpv4Hdr_readBytes m' a'] at wire
  injection wire with hinstr
  injection hinstr with hfields
  rw [← headerOfWire_ipv4WireAt, ← headerOfWire_ipv4WireAt, hfields]

/-- Bytes within the first part of an input do not depend on the rest. -/
theorem readBytes_ofBytes_left (head rest : List Byte) {a n : Nat} (h : a + n ≤ head.length) :
    (Memory.ofBytes (head ++ rest)).readBytes a n = (head.drop a).take n := by
  rw [readBytes_ofBytes _ _ _ (by rw [List.length_append]; omega), List.drop_append_of_le_length (by omega),
    List.take_append_of_le_length (by rw [List.length_drop]; omega)]

/-- Bytes behind the first part of an input depend on the rest alone. -/
theorem readBytes_ofBytes_right (head rest : List Byte) {n : Nat} (h : n ≤ rest.length) :
    (Memory.ofBytes (head ++ rest)).readBytes head.length n = rest.take n := by
  rw [readBytes_ofBytes _ _ _ (by rw [List.length_append]; omega), List.drop_left]

/-- Settles O53: both records are of two stages that succeed, over the same 34 bytes. -/
theorem parseReadsOnly34Bytes : Obligations.ParseReadsOnly34Bytes := by
  intro head rest rest' s t t' hlen h h'
  have heth : ethHeaderAt s.roms.etype (Memory.ofBytes (head ++ rest)) 0
      = ethHeaderAt s.roms.etype (Memory.ofBytes (head ++ rest')) 0 := by
    apply ethHeaderAt_congr
    rw [readBytes_ofBytes_left _ _ (by omega), readBytes_ofBytes_left _ _ (by omega)]
  have hip4 : ipv4HeaderAt s.roms.proto (Memory.ofBytes (head ++ rest)) 14
      = ipv4HeaderAt s.roms.proto (Memory.ofBytes (head ++ rest')) 14 := by
    apply ipv4HeaderAt_congr
    rw [readBytes_ofBytes_left _ _ (by omega), readBytes_ofBytes_left _ _ (by omega)]
  rw [parse_next h, parse_next h', setRecord_result, setRecord_result,
    parseRecord_both _ _ (by simp [hlen]), parseRecord_both _ _ (by simp [hlen]), heth, hip4]

/-- Settles O54: the record is a function of the tables and the buffer. -/
theorem parseForgetsEarlierTransactions : Obligations.ParseForgetsEarlierTransactions := by
  intro bytes s s' t t' hroms h h'
  rw [parse_next h, parse_next h', hroms]
  exact ⟨rfl, rfl⟩

/-- Settles O55: below 34 bytes neither record has an IPv4 header, from 34 on both have that of the twenty
bytes behind the Ethernet header. -/
theorem ipv4StageIsNotGated : Obligations.Ipv4StageIsNotGated := by
  intro e e' rest s t t' he he' h h'
  rw [parse_next h, parse_next h', setRecord_result, setRecord_result]
  have hlen : (Memory.ofBytes (e ++ rest)).len = 14 + rest.length := by simp [he]
  have hlen' : (Memory.ofBytes (e' ++ rest)).len = 14 + rest.length := by simp [he']
  by_cases hshort : 14 + rest.length < 34
  · rw [parseRecord_ethOnly _ _ (by omega) (by omega), parseRecord_ethOnly _ _ (by omega) (by omega)]
    exact ⟨rfl, rfl, fun hlong => absurd hshort (Nat.not_lt_of_le hlong)⟩
  · have hip4 : ipv4HeaderAt s.roms.proto (Memory.ofBytes (e ++ rest)) 14
        = ipv4HeaderAt s.roms.proto (Memory.ofBytes (e' ++ rest)) 14 := by
      apply ipv4HeaderAt_congr
      have left := readBytes_ofBytes_right e rest (n := 20) (by omega)
      have right := readBytes_ofBytes_right e' rest (n := 20) (by omega)
      rw [he] at left
      rw [he'] at right
      rw [left, right]
    rw [parseRecord_both _ _ (by omega), parseRecord_both _ _ (by omega), hip4]
    exact ⟨rfl, rfl, fun _ => ⟨_, rfl⟩⟩

end Sys2Proof.Machine
end
